-- ==== Sys2Proof/Word.lean ====
section
/-! DEFINITION. The two bit widths of the block: an 8-bit symbol code (R9, decision D4) and the 32-bit data word
of the bus (R6, decision D1). Every value is unsigned (R7). -/

namespace Sys2Proof

/-- A symbol code: 8 bits (R9). -/
abbrev Byte := BitVec 8

/-- A bus word: 32 bits (R6). -/
abbrev Word := BitVec 32

end Sys2Proof
end

