-- ==== Sys2Proof/Config.lean ====
section
/-! DEFINITION. What an implementation or its platform fixes (R6), the widths N of the codec, and the free value
that stands for every unspecified register content (R45, R191). -/

namespace Sys2Proof

/-- The digit count N of an encode or decode operation: exactly 1 to 5 (R6, R10 "Width (N)"). -/
inductive Width where
  | w1 | w2 | w3 | w4 | w5
  deriving DecidableEq, Repr

/-- N as a number (R93: zero-extended, not scaled). -/
def Width.digits : Width → Nat
  | .w1 => 1
  | .w2 => 2
  | .w3 => 3
  | .w4 => 4
  | .w5 => 5

/-- The OPEN parameter RESET_KIND (R6, R200): the polarity of the reset input and whether it is synchronous.
No step reads it, because "A model cannot observe RESET_KIND" (R200). Log entry 2. -/
structure ResetKind where
  activeHigh  : Bool
  synchronous : Bool
  deriving DecidableEq, Repr

/-- The OPEN parameter HOST_BUS_ERROR (R6): what the host does on a bus error, "whether it traps, ignores it or
hangs" (R178). Whatever it is, the host program ends faulted. Log entry 2. -/
inductive HostReaction where
  | traps | ignores | hangs
  deriving DecidableEq, Repr

/-- The three OPEN parameters of R6, which "a model takes as arguments". They stand in the state as plain data that no
step changes, so that a claim about every state is a claim about every value of them. BASE is a multiple of 256
(R60), so it is held as its page number BASE / 256. Log entries 1 and 2. -/
structure Params where
  basePage     : Nat
  resetKind    : ResetKind
  hostBusError : HostReaction
  deriving DecidableEq, Repr

/-- BASE, the byte address of the register window: a multiple of 256 (R6, R60). -/
def Params.base (p : Params) : Nat := 256 * p.basePage

namespace Config

/-- FREE VALUE. The content of a storage register that the spec leaves unspecified, "a draw, not 0" (R45): the n-th
draw of a run. It has no body, so no proof can know it. Log entry 9 (DESIGN CHOICE: the form of the draw). -/
opaque draw (n : Nat) : Word

end Config

end Sys2Proof
end

