-- ==== Sys2Proof/Syntax.lean ====
section
/-! DEFINITION. The twelve commands of the block: one constructor per row of spec/opcode_table.json (R95). All 32 bits
of every row are fixed, so no command has an operand field; every other operand is a register (R94). -/

namespace Sys2Proof

/-- A command: the block's instruction (R1, R10). -/
inductive Instr where
  | encode1
  | encode2
  | encode3
  | encode4
  | encode5
  | decode1
  | decode2
  | decode3
  | decode4
  | decode5
  | symbolAt
  | indexOf
  deriving DecidableEq, Repr

end Sys2Proof
end

