-- ==== Sys2Proof/WellFormed.lean ====
section
/-! DEFINITION. The fields of a command word in format CMD32 (R91) and the checks that make a word one of the twelve
valid commands (R92, R93, R97). A command of Sys2Proof.Instr carries no operand, so the checks speak of its fields. -/

namespace Sys2Proof

/-- The three fields of format CMD32 (R91): OP [3:0], WIDTH [6:4], RSVD [31:7]. -/
structure CmdFields where
  rsvd  : BitVec 25
  width : BitVec 3
  op    : BitVec 4
  deriving DecidableEq, Repr

/-- The four assigned values of OP (R92). -/
inductive Op where
  | encode | decode | symbolAt | indexOf
  deriving DecidableEq, Repr

/-- RSVD "must be 0" (R91). -/
def CmdFields.rsvdZero (f : CmdFields) : Bool := f.rsvd == 0#25

/-- OP is one of 0x1 to 0x4 (R92). -/
def CmdFields.opAssigned (f : CmdFields) : Bool :=
  f.op == 1#4 || f.op == 2#4 || f.op == 3#4 || f.op == 4#4

/-- WIDTH is 1 to 5 for ENCODE and DECODE, and 0 for SYMBOL_AT and INDEX_OF (R93). -/
def CmdFields.widthLegal (f : CmdFields) : Bool :=
  if f.op == 1#4 || f.op == 2#4 then 1#3 ≤ f.width && f.width ≤ 5#3 else f.width == 0#3

/-- The fields of a valid command word: every word that fails one of these checks is illegal (R97). -/
def CmdFields.wellFormed (f : CmdFields) : Bool :=
  f.rsvdZero && f.opAssigned && f.widthLegal

end Sys2Proof
end

