-- ==== Sys2Proof/Decode.lean ====
section
/-! DEFINITION. Command decode (R96), total on every 32-bit word and rejecting by name, and the encoder written from
the same tables (R91, R92, R95). The block fetches nothing: the word is the data of one admitted CMD write (R90). -/

namespace Sys2Proof

/-- Why a command word is refused (R96, R97). Both become an error commit (R171), never a fault of the model. -/
inductive DecodeError where
  /-- A reserved bit is set or OP is unassigned; carries the whole word (R176). -/
  | badOpcode (word : Word)
  /-- WIDTH selects no function; carries WIDTH and the largest legal width (R175). -/
  | badWidth (width : BitVec 3) (lim : Word)
  deriving DecidableEq, Repr

/-- The fields of a command word (R91). -/
def fieldsOf (c : Word) : CmdFields :=
  { rsvd := c.extractLsb' 7 25, width := c.extractLsb' 4 3, op := c.extractLsb' 0 4 }

/-- The word with the given fields (R91): `RRRRRRRRRRRRRRRRRRRRRRRRRWWWOOOO`. -/
def wordOf (f : CmdFields) : Word := (f.rsvd ++ f.width ++ f.op).cast rfl

/-- The operation an OP value selects (R92). -/
def opOf (op : BitVec 4) : Option Op :=
  if op = 1#4 then some .encode
  else if op = 2#4 then some .decode
  else if op = 3#4 then some .symbolAt
  else if op = 4#4 then some .indexOf
  else none

/-- The width a WIDTH value selects for ENCODE and DECODE: only 1 to 5 select a function (R93). -/
def widthOf (w : BitVec 3) : Option Width :=
  if w = 1#3 then some .w1
  else if w = 2#3 then some .w2
  else if w = 3#3 then some .w3
  else if w = 4#3 then some .w4
  else if w = 5#3 then some .w5
  else none

/-- ENCODEN for a width (R95). -/
def encodeInstr : Width → Instr
  | .w1 => .encode1
  | .w2 => .encode2
  | .w3 => .encode3
  | .w4 => .encode4
  | .w5 => .encode5

/-- DECODEN for a width (R95). -/
def decodeInstr : Width → Instr
  | .w1 => .decode1
  | .w2 => .decode2
  | .w3 => .decode3
  | .w4 => .decode4
  | .w5 => .decode5

/-- The width checks of R96: the command an assigned OP selects with this WIDTH. -/
def selectCmd (op : Op) (w : BitVec 3) : Except DecodeError Instr :=
  match op with
  | .encode =>
    match widthOf w with
    | some n => .ok (encodeInstr n)
    | none => .error (.badWidth w 5#32)
  | .decode =>
    match widthOf w with
    | some n => .ok (decodeInstr n)
    | none => .error (.badWidth w 5#32)
  | .symbolAt => if w = 0#3 then .ok .symbolAt else .error (.badWidth w 0#32)
  | .indexOf => if w = 0#3 then .ok .indexOf else .error (.badWidth w 0#32)

/-- DecodeCmd (R96): the checks run in the order written there. -/
def decodeCmd (c : Word) : Except DecodeError Instr :=
  if (fieldsOf c).rsvd ≠ 0#25 then .error (.badOpcode c)
  else
    match opOf (fieldsOf c).op with
    | none => .error (.badOpcode c)
    | some op => selectCmd op (fieldsOf c).width

/-- The fields of each command, from the opcode map (R92, R95). -/
def encodeFields : Instr → CmdFields
  | .encode1  => { rsvd := 0#25, width := 1#3, op := 1#4 }
  | .encode2  => { rsvd := 0#25, width := 2#3, op := 1#4 }
  | .encode3  => { rsvd := 0#25, width := 3#3, op := 1#4 }
  | .encode4  => { rsvd := 0#25, width := 4#3, op := 1#4 }
  | .encode5  => { rsvd := 0#25, width := 5#3, op := 1#4 }
  | .decode1  => { rsvd := 0#25, width := 1#3, op := 2#4 }
  | .decode2  => { rsvd := 0#25, width := 2#3, op := 2#4 }
  | .decode3  => { rsvd := 0#25, width := 3#3, op := 2#4 }
  | .decode4  => { rsvd := 0#25, width := 4#3, op := 2#4 }
  | .decode5  => { rsvd := 0#25, width := 5#3, op := 2#4 }
  | .symbolAt => { rsvd := 0#25, width := 0#3, op := 3#4 }
  | .indexOf  => { rsvd := 0#25, width := 0#3, op := 4#4 }

/-- The command word of a command (R95). -/
def encode (i : Instr) : Word := wordOf (encodeFields i)

/-- The command read from a word numbered as spec/opcode_table.json numbers it: bit 0 is the least significant bit
of the 32-bit word (R7, R90); bits above nbits are 0. A value that does not fit is refused, never wrapped. Log
entry 17. -/
def decodeTableWord (nbits w : Nat) : Option Instr :=
  if nbits ≤ 32 ∧ w < 2 ^ nbits then
    match decodeCmd (BitVec.ofNat 32 w) with
    | .ok i => some i
    | .error _ => none
  else none

end Sys2Proof
end

