-- ==== Sys2Proof/Machine/State.lean ====
section
/-! DEFINITION. The state of the block (R20) with the world around it that its rules speak of: the accesses that arrive
(R75), the values they read and the programs that ended faulted (R210), the reset input (R200) and the platform's
parameters (R6). All plain data. -/

namespace Sys2Proof.Machine

/-- Five symbol codes, SIN[0..4] or SOUT[0..4] (R20): c0 is position 0, the leftmost character (R30, R34). -/
structure Chars where
  c0 : Byte
  c1 : Byte
  c2 : Byte
  c3 : Byte
  c4 : Byte
  deriving DecidableEq, Repr

/-- Five codes 0x00 (R43). -/
def Chars.zero : Chars := { c0 := 0#8, c1 := 0#8, c2 := 0#8, c3 := 0#8, c4 := 0#8 }

/-- The storage written by the host, the operand registers (R20, R21). -/
structure Operands where
  din  : Word
  slen : Word
  sin  : Chars
  deriving DecidableEq, Repr

/-- The storage written only by commands and by reset, the result registers (R20, R21). -/
structure Results where
  errCode : BitVec 3
  rvalid  : Bool
  dout    : Word
  soutLen : BitVec 3
  sout    : Chars
  errVal  : Word
  errLim  : Word
  errPos  : BitVec 3
  deriving DecidableEq, Repr

/-- The operand registers after reset (R43). -/
def Operands.reset : Operands := { din := 0#32, slen := 0#32, sin := Chars.zero }

/-- The result registers after reset (R43). -/
def Results.reset : Results :=
  { errCode := 0#3, rvalid := false, dout := 0#32, soutLen := 0#3, sout := Chars.zero,
    errVal := 0#32, errLim := 0#32, errPos := 0#3 }

/-- A host access reads, or writes a word of data (R8 MemRead, MemWrite). -/
inductive AccessKind where
  | read
  | write (data : Word)
  deriving DecidableEq, Repr

/-- One bus access by a host: its kind, its byte address, its width in bytes, and its byte enables, one per byte lane
(R60, R64). `host` numbers the host program that issued it; it stands for nothing the block sees (R186, R189), and only
the end of a faulted program (R178) and the launch premises of R212 speak of it. DESIGN CHOICE, log entry 23. -/
structure Access where
  kind        : AccessKind
  addr        : Nat
  size        : Nat
  byteEnables : BitVec 4
  host        : Nat := 0
  deriving DecidableEq, Repr

/-- What can reach the block from outside (R211). -/
inductive Event where
  /-- A host access arrives. -/
  | access (a : Access)
  /-- The platform asserts the reset input (R200). -/
  | resetAssert
  /-- The platform releases the reset input (R200). -/
  | resetRelease
  /-- The block is powered up, or its power or clock was removed and has come back (R45, R191). -/
  | powerUp
  deriving DecidableEq, Repr

/-- Where the platform's reset stands: never applied since power-up (R45), asserted now (R201), or applied and
released (R202). -/
inductive ResetPhase where
  | unreset
  | asserted
  | released
  deriving DecidableEq, Repr

/-- Why an access got a bus error: the four cases of R177. The name is the model's; the block records none. -/
inductive BusErrorCause where
  /-- Not 32 bits wide, or partial byte enables (R64). -/
  | width
  /-- The offset is not 4-byte aligned (R65). -/
  | misaligned
  /-- No register has this offset (R66). -/
  | unmapped
  /-- A write of a read-only register (R67). -/
  | readOnly
  deriving DecidableEq, Repr

/-- A host program that ended faulted at an access that got a bus error (R178, R210): whose program it was, why the
access was refused, the word a refused read returns (R64, R66), and what the platform's hosts do on a bus error (R6
HOST_BUS_ERROR). Log entries 6 and 25. -/
structure ProgramFault where
  host     : Nat
  cause    : BusErrorCause
  data     : Option Word
  reaction : HostReaction
  deriving DecidableEq, Repr

/-- The whole machine. `operands` and `results` are the block's storage, all of it (R20); the other fields are the
model's own: the reset input, the events that are still to arrive, oldest first (R75), the values read so far and the
host programs that ended faulted, each oldest first (R210), the parameters (R6), and the count of free values handed out
(R45). -/
structure State where
  operands   : Operands
  results    : Results
  resetPhase : ResetPhase
  pending    : List Event
  reads      : List Word
  faults     : List ProgramFault
  params     : Params
  draws      : Nat
  deriving DecidableEq, Repr

/-- Why the machine stops. A bus error is none of these: it ends one host's program (R178), not the machine. -/
inductive Fault where
  /-- A host access while reset is asserted: "a model gives it no step" (R201). Raised by
  Sys2Proof.Machine.arrive. Safe. Log entry 8. -/
  | accessDuringReset
  deriving DecidableEq, Repr

/-- Why an event has no meaning here. -/
inductive Refusal where
  /-- An instruction that has no meaning yet. No arm raises it. Safe. -/
  | notModelled (mnemonic : String)
  /-- The access's address lies outside BASE .. BASE + 0xFF, so it is not an access of this block (R60). Raised by
  Sys2Proof.Machine.hostAccess. Safe. Log entry 7. -/
  | outsideWindow (addr : Nat)
  deriving DecidableEq, Repr

/-- The parameters State.reset carries: one choice for every run of tests; no rule depends on it. DESIGN CHOICE, log
entries 1 and 2. -/
def resetParams : Params :=
  { basePage := 0, resetKind := { activeHigh := true, synchronous := true }, hostBusError := .traps }

/-- The machine right after reset: every storage register 0 (R43, R200), nothing in flight (R212), no program and no
faulted one (log entries 4, 12 and 25). -/
def State.reset : State :=
  { operands := Operands.reset, results := Results.reset, resetPhase := .released, pending := [], reads := [],
    faults := [], params := resetParams, draws := 0 }

end Sys2Proof.Machine
end

