-- ==== Sys2Proof/Machine/Flags.lean ====
section
/-! DEFINITION. The flag-like state: the error codes and the STATUS register (R25, R27, R171). -/

namespace Sys2Proof.Machine

/-- The five error kinds a command can end with (R171). -/
inductive ErrKind where
  | outOfRange | invalidLength | unknownSymbol | badWidth | badOpcode
  deriving DecidableEq, Repr

/-- The numeric code of an error kind (R171). -/
def ErrKind.code : ErrKind → BitVec 3
  | .outOfRange    => 1#3
  | .invalidLength => 2#3
  | .unknownSymbol => 3#3
  | .badWidth      => 4#3
  | .badOpcode     => 5#3

/-- ERRCODE of a command that succeeded, and of the reset state: NONE (R171). -/
def noError : BitVec 3 := 0#3

/-- STATUS as a host reads it: ERRCODE in [2:0], RVALID in [8], every reserved bit 0 (R25, R69). -/
def statusWord (r : Results) : Word :=
  (BitVec.ofBool r.rvalid ++ 0#5 ++ r.errCode).setWidth 32

end Sys2Proof.Machine
end

