-- ==== Sys2Proof/Machine/Operands.lean ====
section
/-! DEFINITION. The operand and result forms of the commands: character strings, and the byte lanes through which a
host sees them (R30, R31, R34, R62, R94). -/

namespace Sys2Proof.Machine

/-- The five codes, leftmost first (R9). -/
def Chars.toList (c : Chars) : List Byte := [c.c0, c.c1, c.c2, c.c3, c.c4]

/-- Five codes from a string: 0x00 at every position past its end (R99, R103). -/
def Chars.ofList (s : List Byte) : Chars :=
  { c0 := s.getD 0 0#8, c1 := s.getD 1 0#8, c2 := s.getD 2 0#8, c3 := s.getD 3 0#8, c4 := s.getD 4 0#8 }

/-- The string operand of DECODEN: the characters SIN[0..N-1], and no others (R94, R150). -/
def stringOperand (o : Operands) (w : Width) : List Byte := o.sin.toList.take w.digits

/-- Four bytes as a word, the first in byte lane 0 (R62). -/
def wordOfLanes (b0 b1 b2 b3 : Byte) : Word := (b3 ++ b2 ++ b1 ++ b0).cast rfl

/-- Byte lane k of a word: bits [8k+7:8k] (R62). -/
def lane (v : Word) (k : Nat) : Byte := v.extractLsb' (8 * k) 8

/-- Positions 0 to 3 as one register word: SIN0 or SOUT0 (R30, R34). -/
def Chars.word0 (c : Chars) : Word := wordOfLanes c.c0 c.c1 c.c2 c.c3

/-- Position 4 as one register word: SIN1 or SOUT1, bits [31:8] read as 0 (R31, R34). -/
def Chars.word1 (c : Chars) : Word := c.c4.setWidth 32

/-- A write of SIN0 stores four characters (R30, R70). -/
def Chars.setWord0 (c : Chars) (v : Word) : Chars :=
  { c with c0 := lane v 0, c1 := lane v 1, c2 := lane v 2, c3 := lane v 3 }

/-- A write of SIN1 stores one character; bits [31:8] are ignored (R31, R67, R70). -/
def Chars.setWord1 (c : Chars) (v : Word) : Chars := { c with c4 := lane v 0 }

end Sys2Proof.Machine
end

