-- ==== Sys2Proof/Machine/Ops.lean ====
section
/-! DEFINITION. The shared operations: the two commits that every command ends in (R98, R99, R181), reset (R200),
power-up (R45, R191) and the bus error that ends a host's program (R177, R178). -/

namespace Sys2Proof.Machine

/-- An error and the context it records (R171). -/
structure CmdError where
  kind : ErrKind
  val  : Word
  lim  : Word
  pos  : BitVec 3
  deriving DecidableEq, Repr

/-- commitOK (R99): every result register of a successful command. -/
def commitOK (dout : Word) (sout : List Byte) (soutLen : Nat) : Results :=
  { errCode := noError, rvalid := true, dout := dout, soutLen := BitVec.ofNat 3 soutLen,
    sout := Chars.ofList (sout.take soutLen), errVal := 0#32, errLim := 0#32, errPos := 0#3 }

/-- raise (R181): every result register of a failed command. This is the block's one way to take an error; nothing
is saved besides, no control is transferred, and there is no return from it (R170, R183). -/
def raiseError (e : CmdError) : Results :=
  { errCode := e.kind.code, rvalid := false, dout := 0#32, soutLen := 0#3, sout := Chars.zero,
    errVal := e.val, errLim := e.lim, errPos := e.pos }

/-- The error a refused command word commits (R96, R175, R176). -/
def decodeErrorOf : DecodeError → CmdError
  | .badOpcode c => { kind := .badOpcode, val := c, lim := 0#32, pos := 0#3 }
  | .badWidth w lim => { kind := .badWidth, val := w.setWidth 32, lim := lim, pos := 0#3 }

/-- A command ends by overwriting every result register and nothing else (R98, R100). -/
def State.commit (s : State) (r : Results) : State := { s with results := r }

/-- Reset (R200): every storage register takes its reset value; the reset input stands at `phase`. -/
def State.applyReset (s : State) (phase : ResetPhase) : State :=
  { s with operands := Operands.reset, results := Results.reset, resetPhase := phase }

/-- Operand registers that hold unspecified values, from the n-th draw on (R45). -/
def drawnOperands (n : Nat) : Operands :=
  { din := Config.draw n, slen := Config.draw (n + 1),
    sin := { c0 := (Config.draw (n + 2)).setWidth 8, c1 := (Config.draw (n + 3)).setWidth 8,
             c2 := (Config.draw (n + 4)).setWidth 8, c3 := (Config.draw (n + 5)).setWidth 8,
             c4 := (Config.draw (n + 6)).setWidth 8 } }

/-- The n-th draw for a 3-bit register whose values are 0 to `max` (R20, R26). -/
def drawUpTo (max n : Nat) : BitVec 3 := BitVec.ofNat 3 ((Config.draw n).toNat % (max + 1))

/-- Result registers that hold unspecified values, from the n-th draw on (R45), each within the values R20 and R26 give
it: ERRCODE and SOUTLEN 0 to 5, ERRPOS 0 to 4. DEDUCED, log entry 21. -/
def drawnResults (n : Nat) : Results :=
  { errCode := drawUpTo 5 n, rvalid := (Config.draw (n + 1)).getLsbD 0, dout := Config.draw (n + 2),
    soutLen := drawUpTo 5 (n + 3),
    sout := { c0 := (Config.draw (n + 4)).setWidth 8, c1 := (Config.draw (n + 5)).setWidth 8,
              c2 := (Config.draw (n + 6)).setWidth 8, c3 := (Config.draw (n + 7)).setWidth 8,
              c4 := (Config.draw (n + 8)).setWidth 8 },
    errVal := Config.draw (n + 9), errLim := Config.draw (n + 10), errPos := drawUpTo 4 (n + 11) }

/-- The number of draws one power-up takes: 7 operand and 12 result values. -/
def drawsPerPowerUp : Nat := 19

/-- Power-up, or power or clock removed and back: every storage register holds an unspecified value, and reset has not
been applied (R45, R191). While the reset input is asserted the registers hold their reset values (R200). DEDUCED,
log entry 9. -/
def State.powerUp (s : State) : State :=
  match s.resetPhase with
  | .asserted => s
  | .unreset =>
    { s with operands := drawnOperands s.draws, results := drawnResults (s.draws + 7), resetPhase := .unreset,
             draws := s.draws + drawsPerPowerUp }
  | .released =>
    { s with operands := drawnOperands s.draws, results := drawnResults (s.draws + 7), resetPhase := .unreset,
             draws := s.draws + drawsPerPowerUp }

/-- The word a refused access returns: 0x00000000 to a read, none to a write (R64, R66, R177). -/
def refusedData : AccessKind → Option Word
  | .read => some 0#32
  | .write _ => none

/-- The event is an access that host `h` issued. -/
def Event.issuedBy (h : Nat) : Event → Bool
  | .access a => a.host == h
  | .resetAssert => false
  | .resetRelease => false
  | .powerUp => false

/-- The bus error: the access is refused and no block state changes (R177). The host program that issued it ends faulted
at that access (R178, R210), so its later accesses are never issued; those of other hosts, and the platform's events,
are still to arrive (R75, R189). Log entry 6. -/
def State.busError (s : State) (a : Access) (c : BusErrorCause) : State :=
  { s with
    pending := s.pending.filter fun e => !e.issuedBy a.host,
    faults := s.faults ++ [{ host := a.host, cause := c, data := refusedData a.kind,
                             reaction := s.params.hostBusError }] }

end Sys2Proof.Machine
end

