-- ==== Sys2Proof/Machine/Alphabet.lean ====
section
/-! DEFINITION. The symbol lookup table and the reverse symbol index (R110 to R119) with their commands SYMBOL_AT (R117)
and INDEX_OF (R118). The tables are constants, not state (R44, R119). -/

namespace Sys2Proof.Machine

/-- SYM[0..15], `0` to `F` (R110). -/
def symRow0 : List Byte :=
  [0x30#8, 0x31#8, 0x32#8, 0x33#8, 0x34#8, 0x35#8, 0x36#8, 0x37#8,
   0x38#8, 0x39#8, 0x41#8, 0x42#8, 0x43#8, 0x44#8, 0x45#8, 0x46#8]

/-- SYM[16..31], `G` to `V` (R110). -/
def symRow1 : List Byte :=
  [0x47#8, 0x48#8, 0x49#8, 0x4A#8, 0x4B#8, 0x4C#8, 0x4D#8, 0x4E#8,
   0x4F#8, 0x50#8, 0x51#8, 0x52#8, 0x53#8, 0x54#8, 0x55#8, 0x56#8]

/-- SYM[32..47], `W` to `l` (R110). -/
def symRow2 : List Byte :=
  [0x57#8, 0x58#8, 0x59#8, 0x5A#8, 0x61#8, 0x62#8, 0x63#8, 0x64#8,
   0x65#8, 0x66#8, 0x67#8, 0x68#8, 0x69#8, 0x6A#8, 0x6B#8, 0x6C#8]

/-- SYM[48..63], `m` to `_` (R110). -/
def symRow3 : List Byte :=
  [0x6D#8, 0x6E#8, 0x6F#8, 0x70#8, 0x71#8, 0x72#8, 0x73#8, 0x74#8,
   0x75#8, 0x76#8, 0x77#8, 0x78#8, 0x79#8, 0x7A#8, 0x2D#8, 0x5F#8]

/-- The symbol table (R110). The codes are US-ASCII, from general knowledge as R110 itself says. PRESUMED, log
entry 11. -/
def symTable : List Byte := symRow0 ++ symRow1 ++ symRow2 ++ symRow3

/-- SYM[i], the symbol code of index i (R110). -/
def SYM (i : BitVec 6) : Byte := symTable.getD i.toNat 0#8

/-- The separator `*` (R112). PRESUMED code, log entry 11. -/
def SEP : Byte := 0x2A#8

/-- REV(b), the index of symbol code b, or none (R113). -/
def REV (b : Byte) : Option (BitVec 6) :=
  if 0x30#8 ≤ b ∧ b ≤ 0x39#8 then some ((b - 0x30#8).setWidth 6)
  else if 0x41#8 ≤ b ∧ b ≤ 0x5A#8 then some ((b - 0x41#8 + 10#8).setWidth 6)
  else if 0x61#8 ≤ b ∧ b ≤ 0x7A#8 then some ((b - 0x61#8 + 36#8).setWidth 6)
  else if b = 0x2D#8 then some 62#6
  else if b = 0x5F#8 then some 63#6
  else none

/-- The word ALPHABETj reads as: window byte 0x40 + i holds SYM[i] (R39). -/
def alphabetWord (j : Fin 16) : Word :=
  wordOfLanes (SYM (BitVec.ofNat 6 (4 * j.val))) (SYM (BitVec.ofNat 6 (4 * j.val + 1)))
    (SYM (BitVec.ofNat 6 (4 * j.val + 2))) (SYM (BitVec.ofNat 6 (4 * j.val + 3)))

/-- SymbolAt() (R117): DIN is never truncated to 6 bits. -/
def symbolAtCmd (o : Operands) : Results :=
  if 63#32 < o.din then raiseError { kind := .outOfRange, val := o.din, lim := 63#32, pos := 0#3 }
  else commitOK 0#32 [SYM (o.din.setWidth 6)] 1

/-- IndexOf() (R118): SLEN and SIN[1..4] are ignored. -/
def indexOfCmd (o : Operands) : Results :=
  match REV o.sin.c0 with
  | none => raiseError { kind := .unknownSymbol, val := o.sin.c0.setWidth 32, lim := 1#32, pos := 0#3 }
  | some r => commitOK (r.setWidth 32) [] 0

/-- SYMBOL_AT (R117). -/
def execSymbolAt (s : State) : Host.Outcome State Fault Refusal := .next (s.commit (symbolAtCmd s.operands))

/-- INDEX_OF (R118). -/
def execIndexOf (s : State) : Host.Outcome State Fault Refusal := .next (s.commit (indexOfCmd s.operands))

end Sys2Proof.Machine
end

