-- ==== Sys2Proof/Machine/Decoder.lean ====
section
/-! DEFINITION. The decoder: DECODE1 to DECODE5 (R150 to R158). -/

namespace Sys2Proof.Machine

/-- N as a word, the constraint an INVALID_LENGTH or UNKNOWN_SYMBOL error of DECODEN records (R171). -/
def widthWord (w : Width) : Word := BitVec.ofNat 32 w.digits

/-- The loop of DecodeN (R150) from position `pos` on, over the characters still to read: the position with `k`
characters after it has weight 2^(6k). The first character without an index ends the command. -/
def decodeChars (lim : Word) (pos : Nat) (acc : Word) : List Byte → Except CmdError Word
  | [] => .ok acc
  | c :: rest =>
    match REV c with
    | none => .error { kind := .unknownSymbol, val := c.setWidth 32, lim := lim, pos := BitVec.ofNat 3 pos }
    | some r => decodeChars lim (pos + 1) (acc ||| (r.setWidth 32 <<< (6 * rest.length))) rest

/-- DecodeN(N) (R150): the length check comes before any symbol check. -/
def decodeN (w : Width) (o : Operands) : Results :=
  if o.slen ≠ widthWord w then raiseError { kind := .invalidLength, val := o.slen, lim := widthWord w, pos := 0#3 }
  else
    match decodeChars (widthWord w) 0 0#32 (stringOperand o w) with
    | .error e => raiseError e
    | .ok acc => commitOK acc [] 0

/-- DECODE1 (R151). -/
def execDecode1 (s : State) : Host.Outcome State Fault Refusal := .next (s.commit (decodeN .w1 s.operands))

/-- DECODE2 (R152). -/
def execDecode2 (s : State) : Host.Outcome State Fault Refusal := .next (s.commit (decodeN .w2 s.operands))

/-- DECODE3 (R153). -/
def execDecode3 (s : State) : Host.Outcome State Fault Refusal := .next (s.commit (decodeN .w3 s.operands))

/-- DECODE4 (R154). -/
def execDecode4 (s : State) : Host.Outcome State Fault Refusal := .next (s.commit (decodeN .w4 s.operands))

/-- DECODE5 (R155). -/
def execDecode5 (s : State) : Host.Outcome State Fault Refusal := .next (s.commit (decodeN .w5 s.operands))

end Sys2Proof.Machine
end

