-- ==== Sys2Proof/Machine/Encoder.lean ====
section
/-! DEFINITION. The encoder: the bit-isolation primitive (R130, R131) and ENCODE1 to ENCODE5 (R132 to R139). -/

namespace Sys2Proof.Machine

/-- The offsets at which the encoder isolates a group. R131 admits these five and no other, with group width 6; any
other use "is refused": it cannot be written. Log entry 14. -/
inductive GroupOffset where
  | off0 | off6 | off12 | off18 | off24
  deriving DecidableEq, Repr

/-- The offset in bits (R131). -/
def GroupOffset.bits : GroupOffset → Nat
  | .off0  => 0
  | .off6  => 6
  | .off12 => 12
  | .off18 => 18
  | .off24 => 24

/-- isolate(bits, off, 6) (R130): shift right and mask to 6 bits, on the domain of R131. -/
def isolate (bits : Word) (off : GroupOffset) : BitVec 6 :=
  ((bits >>> off.bits) &&& ((1#32 <<< 6) - 1#32)).setWidth 6

/-- The largest value of width N: 2^(6N) - 1 (R6, R132). -/
def maxValue (w : Width) : Word := BitVec.ofNat 32 (2 ^ (6 * w.digits) - 1)

/-- The offsets 6*(N-1-i) for i = 0 .. N-1: the most significant group first (R132). -/
def groupOffsets : Width → List GroupOffset
  | .w1 => [.off0]
  | .w2 => [.off6, .off0]
  | .w3 => [.off12, .off6, .off0]
  | .w4 => [.off18, .off12, .off6, .off0]
  | .w5 => [.off24, .off18, .off12, .off6, .off0]

/-- EncodeN(N) (R132). -/
def encodeN (w : Width) (o : Operands) : Results :=
  if maxValue w < o.din then raiseError { kind := .outOfRange, val := o.din, lim := maxValue w, pos := 0#3 }
  else commitOK 0#32 ((groupOffsets w).map fun off => SYM (isolate o.din off)) w.digits

/-- ENCODE1 (R133). -/
def execEncode1 (s : State) : Host.Outcome State Fault Refusal := .next (s.commit (encodeN .w1 s.operands))

/-- ENCODE2 (R134). -/
def execEncode2 (s : State) : Host.Outcome State Fault Refusal := .next (s.commit (encodeN .w2 s.operands))

/-- ENCODE3 (R135). -/
def execEncode3 (s : State) : Host.Outcome State Fault Refusal := .next (s.commit (encodeN .w3 s.operands))

/-- ENCODE4 (R136). -/
def execEncode4 (s : State) : Host.Outcome State Fault Refusal := .next (s.commit (encodeN .w4 s.operands))

/-- ENCODE5 (R137). -/
def execEncode5 (s : State) : Host.Outcome State Fault Refusal := .next (s.commit (encodeN .w5 s.operands))

end Sys2Proof.Machine
end

