-- ==== Sys2Proof/Machine/Dispatch.lean ====
section
/-! DEFINITION. The dispatch of Execute (R98): one arm per command. -/

namespace Sys2Proof.Machine

def exec (i : Instr) (s : State) : Host.Outcome State Fault Refusal :=
  match i with
  | .encode1 => Sys2Proof.Machine.execEncode1 s
  | .encode2 => Sys2Proof.Machine.execEncode2 s
  | .encode3 => Sys2Proof.Machine.execEncode3 s
  | .encode4 => Sys2Proof.Machine.execEncode4 s
  | .encode5 => Sys2Proof.Machine.execEncode5 s
  | .decode1 => Sys2Proof.Machine.execDecode1 s
  | .decode2 => Sys2Proof.Machine.execDecode2 s
  | .decode3 => Sys2Proof.Machine.execDecode3 s
  | .decode4 => Sys2Proof.Machine.execDecode4 s
  | .decode5 => Sys2Proof.Machine.execDecode5 s
  | .symbolAt => Sys2Proof.Machine.execSymbolAt s
  | .indexOf => Sys2Proof.Machine.execIndexOf s

end Sys2Proof.Machine
end

