-- ==== Sys2Proof/Machine/Bus.lean ====
section
/-! DEFINITION. The register window: its map (R23, R61), which accesses it admits (R64 to R67), MemRead (R69), MemWrite
(R70) and Execute (R98), and what an arriving event does (R211). -/

namespace Sys2Proof.Machine

/-- The registers of the window (R23). -/
inductive Reg where
  | cmd | status | din | slen | sin0 | sin1 | dout | soutLen | sout0 | sout1 | errVal | errLim | errPos | separator
  | alphabet (j : Fin 16)
  deriving DecidableEq, Repr

/-- off(reg), the offset of a register in the window (R23). -/
def Reg.offset : Reg → Nat
  | .cmd => 0x00
  | .status => 0x04
  | .din => 0x08
  | .slen => 0x0C
  | .sin0 => 0x10
  | .sin1 => 0x14
  | .dout => 0x18
  | .soutLen => 0x1C
  | .sout0 => 0x20
  | .sout1 => 0x24
  | .errVal => 0x28
  | .errLim => 0x2C
  | .errPos => 0x30
  | .separator => 0x34
  | .alphabet j => 0x40 + 4 * j.val

/-- The registers with a name of their own (R23). -/
def namedRegs : List Reg :=
  [.cmd, .status, .din, .slen, .sin0, .sin1, .dout, .soutLen, .sout0, .sout1, .errVal, .errLim, .errPos, .separator]

/-- Every register of the window (R23). -/
def allRegs : List Reg := namedRegs ++ (List.finRange 16).map Reg.alphabet

/-- The register at an offset; none is unmapped (R23, R61, R66). -/
def regAt (o : Nat) : Option Reg := allRegs.find? fun r => r.offset == o

/-- offset = addr - BASE, for an address of the window (R60). -/
def windowOffset (p : Params) (addr : Nat) : Option Nat :=
  if p.base ≤ addr ∧ addr < p.base + 256 then some (addr - p.base) else none

/-- The checks of an access before its register is reached: its width and byte enables (R64), its alignment (R65) and
its offset (R66). -/
def admitAccess (a : Access) (o : Nat) : Except BusErrorCause Reg :=
  if a.size ≠ 4 ∨ a.byteEnables ≠ 0xF#4 then .error .width
  else if o % 4 ≠ 0 then .error .misaligned
  else
    match regAt o with
    | none => .error .unmapped
    | some r => .ok r

/-- MemRead of an admitted register (R69). It changes nothing. -/
def memRead (s : State) : Reg → Word
  | .cmd => 0#32
  | .status => statusWord s.results
  | .din => s.operands.din
  | .slen => s.operands.slen
  | .sin0 => s.operands.sin.word0
  | .sin1 => s.operands.sin.word1
  | .dout => s.results.dout
  | .soutLen => s.results.soutLen.setWidth 32
  | .sout0 => s.results.sout.word0
  | .sout1 => s.results.sout.word1
  | .errVal => s.results.errVal
  | .errLim => s.results.errLim
  | .errPos => s.results.errPos.setWidth 32
  | .separator => SEP.setWidth 32
  | .alphabet j => alphabetWord j

/-- Execute(v) (R98): run the command v names, or commit the error of a word that names none (R96, R97). -/
def execute (s : State) (v : Word) : Host.Outcome State Fault Refusal :=
  match decodeCmd v with
  | .ok i => exec i s
  | .error e => .next (s.commit (raiseError (decodeErrorOf e)))

/-- MemWrite of a register (R70): CMD runs a command, an operand register stores the value, and every other register
is read-only, so its write is a bus error (R67). -/
def memWrite (s : State) (v : Word) : Reg → Except BusErrorCause (Host.Outcome State Fault Refusal)
  | .cmd => .ok (execute s v)
  | .din => .ok (.next { s with operands := { s.operands with din := v } })
  | .slen => .ok (.next { s with operands := { s.operands with slen := v } })
  | .sin0 => .ok (.next { s with operands := { s.operands with sin := s.operands.sin.setWord0 v } })
  | .sin1 => .ok (.next { s with operands := { s.operands with sin := s.operands.sin.setWord1 v } })
  | .status => .error .readOnly
  | .dout => .error .readOnly
  | .soutLen => .error .readOnly
  | .sout0 => .error .readOnly
  | .sout1 => .error .readOnly
  | .errVal => .error .readOnly
  | .errLim => .error .readOnly
  | .errPos => .error .readOnly
  | .separator => .error .readOnly
  | .alphabet _ => .error .readOnly

/-- What the block answers to an access at an offset of the window: a bus error, or the outcome of MemRead or MemWrite
(R69, R70, R177). A read's value joins the run's sequence of read values (R210). -/
def respond (s : State) (a : Access) (o : Nat) : Except BusErrorCause (Host.Outcome State Fault Refusal) :=
  match admitAccess a o with
  | .error c => .error c
  | .ok r =>
    match a.kind with
    | .read => .ok (.next { s with reads := s.reads ++ [memRead s r] })
    | .write v => memWrite s v r

/-- One host access (R60): the block answers it, or a bus error ends the program that issued it (R178). -/
def hostAccess (s : State) (a : Access) : Host.Outcome State Fault Refusal :=
  match windowOffset s.params a.addr with
  | none => .refused (.outsideWindow a.addr)
  | some o =>
    match respond s a o with
    | .error c => .next (s.busError a c)
    | .ok out => out

/-- What an arriving event does (R211): an access is served unless reset is asserted (R201), reset zeroes the storage
while it is asserted and when it is released (R200), power-up leaves unspecified values (R45). Releasing a reset that
is not asserted changes nothing. DEDUCED, log entry 10. -/
def arrive (s : State) : Event → Host.Outcome State Fault Refusal
  | .access a =>
    match s.resetPhase with
    | .asserted => .fault .accessDuringReset
    | .unreset => hostAccess s a
    | .released => hostAccess s a
  | .resetAssert => .next (s.applyReset .asserted)
  | .resetRelease =>
    match s.resetPhase with
    | .asserted => .next (s.applyReset .released)
    | .unreset => .next s
    | .released => .next s
  | .powerUp => .next s.powerUp

/-- The admitted write of a register (R102 `WR <reg>, v`). -/
def writeAccess (p : Params) (r : Reg) (v : Word) : Access :=
  { kind := .write v, addr := p.base + r.offset, size := 4, byteEnables := 0xF#4 }

/-- The admitted read of a register (R102 `RD <reg>`). -/
def readAccess (p : Params) (r : Reg) : Access :=
  { kind := .read, addr := p.base + r.offset, size := 4, byteEnables := 0xF#4 }

/-- The command word of nbits bits, every bit above them 0 (R90; log entry 17). -/
def tableWord (nbits w : Nat) : Word := BitVec.ofNat 32 (w % 2 ^ nbits)

/-- The reset input no longer asserted; the other phases stay. -/
def ResetPhase.ready : ResetPhase → ResetPhase
  | .asserted => .released
  | .unreset => .unreset
  | .released => .released

end Sys2Proof.Machine
end

