-- ==== Sys2Proof/Machine/Step.lean ====
section
/-! DEFINITION. One step: the next event that arrives (R75). The block fetches nothing (R22): its next command is the
next CMD write of a host. -/

namespace Sys2Proof.Machine

/-- One step of the machine: the oldest pending event arrives and is performed whole (R71, R75). With no event left the
block keeps its state (R191, R210). DEDUCED, log entries 3 and 5. -/
def step (s : State) : Host.Outcome State Fault Refusal :=
  match s.pending with
  | [] => .next s
  | e :: rest => arrive { s with pending := rest } e

/-- The state whose very next step runs the command of the word w: its CMD write is the next access to arrive, and the
reset input is not asserted. It stands for the host issuing the command. Log entries 4 and 17. -/
def State.withFetchWord (s : State) (nbits w : Nat) : State :=
  { s with pending := .access (writeAccess s.params .cmd (tableWord nbits w)) :: s.pending,
           resetPhase := s.resetPhase.ready }

end Sys2Proof.Machine
end

