-- ==== Sys2Proof/Machine/Assembler.lean ====
section
/-! DEFINITION. The host's access notation (R102) and the pseudo-instructions (R103): from the lines of a host program
to the accesses that reach the block. Refusals are by name; nothing is truncated or wrapped. -/

namespace Sys2Proof.Machine

/-- One line of a host program, one bus access (R102). Immediates and annotations are the numbers written. -/
inductive HostLine where
  | wr (r : Reg) (imm : Nat)
  | rd (r : Reg)
  | rdExpect (r : Reg) (imm : Nat)
  | cmd (i : Instr)
  deriving DecidableEq, Repr

/-- The pseudo-instructions (R103). A string is the list of its character codes, leftmost first. -/
inductive Pseudo where
  | encodeFor (w : Nat)
  | decodeFor (w : Nat)
  | enc (n : Nat) (digits : Nat)
  | dec (s : List Nat) (digits : Nat)
  | sym (i : Nat)
  | idx (c : Nat)
  deriving DecidableEq, Repr

/-- One statement of a host program. -/
inductive HostStmt where
  | line (l : HostLine)
  | pseudo (p : Pseudo)
  deriving DecidableEq, Repr

/-- Why the assembler refuses a statement (R102, R103). -/
inductive AsmError where
  /-- An immediate of 2^32 or more "is refused by the assembler, not truncated" (R102). -/
  | immediateTooLarge (imm : Nat)
  /-- A width of 8 or more does not fit WIDTH and is never wrapped into it (R103, R139, R158). -/
  | widthTooLarge (w : Nat)
  /-- No mnemonic of R95 has this digit count. -/
  | noSuchWidth (digits : Nat)
  /-- The text is no line of R102 or R103. -/
  | notALine
  deriving DecidableEq, Repr

/-- An immediate as a bus word (R102). -/
def immediate (n : Nat) : Except AsmError Word :=
  if n < 2 ^ 32 then .ok (BitVec.ofNat 32 n) else .error (.immediateTooLarge n)

/-- The access of one line (R102). -/
def assembleLine (p : Params) : HostLine → Except AsmError Access
  | .wr r imm =>
    match immediate imm with
    | .ok v => .ok (writeAccess p r v)
    | .error e => .error e
  | .rd r => .ok (readAccess p r)
  | .rdExpect r imm =>
    match immediate imm with
    | .ok _ => .ok (readAccess p r)
    | .error e => .error e
  | .cmd i => .ok (writeAccess p .cmd (encode i))

/-- The width of a mnemonic ENCODEN or DECODEN (R95). -/
def digitsOf (n : Nat) : Option Width :=
  if n = 1 then some .w1
  else if n = 2 then some .w2
  else if n = 3 then some .w3
  else if n = 4 then some .w4
  else if n = 5 then some .w5
  else none

/-- The byte a character is written to SIN as: its code, or 0x00 when the code is above 0xFF (R103, R208). -/
def charByte (c : Nat) : Byte := if c ≤ 0xFF then BitVec.ofNat 8 c else 0#8

/-- The string operand as SIN bytes: 0x00 past its end (R103). -/
def stringChars (s : List Nat) : Chars := Chars.ofList (s.map charByte)

/-- The expansion of a pseudo-instruction (R103). The operand of IDX is a character code: R102 refuses a number of 2^32
or more as an immediate, and a smaller code above 0xFF is written as 0x00 (R103). Which of the two rules applies to an
IDX operand is open. DESIGN CHOICE, log entry 18. -/
def expand : Pseudo → Except AsmError (List HostLine)
  | .encodeFor w => if w < 8 then .ok [.wr .cmd (1 + w * 16)] else .error (.widthTooLarge w)
  | .decodeFor w => if w < 8 then .ok [.wr .cmd (2 + w * 16)] else .error (.widthTooLarge w)
  | .enc n digits =>
    match digitsOf digits with
    | some w => .ok [.wr .din n, .cmd (encodeInstr w), .rd .status, .rd .sout0, .rd .sout1]
    | none => .error (.noSuchWidth digits)
  | .dec s digits =>
    match digitsOf digits with
    | some w =>
      .ok [.wr .sin0 (stringChars s).word0.toNat, .wr .sin1 (stringChars s).word1.toNat, .wr .slen s.length,
           .cmd (decodeInstr w), .rd .status, .rd .dout]
    | none => .error (.noSuchWidth digits)
  | .sym i => .ok [.wr .din i, .cmd .symbolAt, .rd .status, .rd .sout0]
  | .idx c =>
    if c < 2 ^ 32 then .ok [.wr .sin0 (charByte c).toNat, .cmd .indexOf, .rd .status, .rd .dout]
    else .error (.immediateTooLarge c)

/-- The accesses of a list of lines, in program order (R76, R102). -/
def assembleLines (p : Params) : List HostLine → Except AsmError (List Access)
  | [] => .ok []
  | l :: ls =>
    match assembleLine p l with
    | .error e => .error e
    | .ok a =>
      match assembleLines p ls with
      | .error e => .error e
      | .ok as => .ok (a :: as)

/-- The lines of one statement. -/
def linesOf : HostStmt → Except AsmError (List HostLine)
  | .line l => .ok [l]
  | .pseudo q => expand q

/-- The accesses of a host program. -/
def assemble (p : Params) : List HostStmt → Except AsmError (List Access)
  | [] => .ok []
  | t :: ts =>
    match linesOf t with
    | .error e => .error e
    | .ok ls =>
      match assembleLines p ls with
      | .error e => .error e
      | .ok as =>
        match assemble p ts with
        | .error e => .error e
        | .ok bs => .ok (as ++ bs)

/-- A host program placed before the machine: its accesses are the next to arrive, in program order and with no other
host's access between them (R76, R210), which is DEVICE_MAPPING and EXCLUSIVE_HOST of R212 by construction. Log entries
4 and 16. -/
def State.launch (s : State) (as : List Access) : State := { s with pending := as.map Event.access ++ s.pending }

/-- A token of a line of text. -/
inductive Token where
  | word (cs : List Char)
  | quoted (cs : List Char)
  /-- A quote that the line never closes. -/
  | openQuote
  | comma
  deriving DecidableEq, Repr

/-- The word read so far, if there is one, and then the rest. -/
def flushWord (acc : List Char) (rest : List Token) : List Token :=
  if acc = [] then rest else .word acc :: rest

/-- The double quote and the single quote, which enclose a character or a string (R9; DESIGN CHOICE, log entry 18). -/
def isQuote (c : Char) : Bool := c.toNat = 0x22 || c.toNat = 0x27

/-- The tokens of a line: a `;` starts a comment, and register names and mnemonics are case-insensitive (R102). `inside`
is the quote that is open, if one is. DESIGN CHOICE, log entry 18: every letter outside quotes is read as its upper case,
so `WR`, `RD`, the pseudo-instructions, the hexadecimal digits and the prefixes `0x` and `0b` may be written in either
case too; a quote, a comma and a `;` end the word before them with no blank between, so `IDX'5'` and `DEC'Ve',2` are
lines; a `;` between quotes is a character; and the spec gives no form with a quote that is never closed, so it
becomes a token that is in no form, and the line is refused. -/
def tokens (inside : Option Char) (acc : List Char) : List Char → List Token
  | [] =>
    match inside with
    | some _ => [.openQuote]
    | none => flushWord acc []
  | c :: cs =>
    match inside with
    | some q => if c = q then .quoted acc :: tokens none [] cs else tokens (some q) (acc ++ [c]) cs
    | none =>
      if c = ';' then flushWord acc []
      else if isQuote c then flushWord acc (tokens (some c) [] cs)
      else if c = ',' then flushWord acc (.comma :: tokens none [] cs)
      else if c = ' ' || c = '\t' then flushWord acc (tokens none [] cs)
      else tokens none (acc ++ [c.toUpper]) cs

/-- The value of a digit in the given base. -/
def digitValue (base : Nat) (c : Char) : Option Nat :=
  let n := c.toNat
  let d := if 0x30 ≤ n ∧ n ≤ 0x39 then n - 0x30 else if 0x41 ≤ n ∧ n ≤ 0x46 then n - 0x37 else base
  if d < base then some d else none

/-- A run of digits in the given base. -/
def digitsValue (base : Nat) (acc : Nat) : List Char → Option Nat
  | [] => some acc
  | c :: cs =>
    match digitValue base c with
    | some d => digitsValue base (acc * base + d) cs
    | none => none

/-- An immediate: hexadecimal `0x`, binary `0b`, or decimal (R102). The letters are upper case here, since `tokens` has
read them so, and leading zeros are accepted. DESIGN CHOICE, log entry 18. -/
def numeral : List Char → Option Nat
  | [] => none
  | '0' :: 'X' :: c :: cs => digitsValue 16 0 (c :: cs)
  | '0' :: 'B' :: c :: cs => digitsValue 2 0 (c :: cs)
  | c :: cs => digitsValue 10 0 (c :: cs)

/-- The named registers (R23). -/
def regNames : List (List Char × Reg) :=
  [ ("CMD".toList, .cmd), ("STATUS".toList, .status), ("DIN".toList, .din), ("SLEN".toList, .slen),
    ("SIN0".toList, .sin0), ("SIN1".toList, .sin1), ("DOUT".toList, .dout), ("SOUTLEN".toList, .soutLen),
    ("SOUT0".toList, .sout0), ("SOUT1".toList, .sout1), ("ERRVAL".toList, .errVal), ("ERRLIM".toList, .errLim),
    ("ERRPOS".toList, .errPos), ("SEPARATOR".toList, .separator) ]

/-- The mnemonics (R95). -/
def mnemonicNames : List (List Char × Instr) :=
  [ ("ENCODE1".toList, .encode1), ("ENCODE2".toList, .encode2), ("ENCODE3".toList, .encode3),
    ("ENCODE4".toList, .encode4), ("ENCODE5".toList, .encode5), ("DECODE1".toList, .decode1),
    ("DECODE2".toList, .decode2), ("DECODE3".toList, .decode3), ("DECODE4".toList, .decode4),
    ("DECODE5".toList, .decode5), ("SYMBOL_AT".toList, .symbolAt), ("INDEX_OF".toList, .indexOf) ]

/-- The register of a name; `ALPHABET<j>` is the register at 0x40 + 4j (R102). How j is written is open: here it is a
decimal number from 0 to 15, leading zeros accepted, so `ALPHABET007` is ALPHABET7. DESIGN CHOICE, log entry 18. -/
def regOfName (cs : List Char) : Option Reg :=
  match regNames.lookup cs with
  | some r => some r
  | none =>
    if cs.take 8 = "ALPHABET".toList ∧ cs.length > 8 then
      match digitsValue 10 0 (cs.drop 8) with
      | some j => if h : j < 16 then some (.alphabet ⟨j, h⟩) else none
      | none => none
    else none

/-- The statement of `WR <reg>, <imm>`. -/
def parseWr (r imm : List Char) : Except AsmError HostStmt :=
  match regOfName r, numeral imm with
  | some reg, some n => .ok (.line (.wr reg n))
  | some _, none => .error .notALine
  | none, _ => .error .notALine

/-- The statement of `RD <reg>` with its annotation, if it has one. -/
def parseRd (r : List Char) (note : Option (List Char)) : Except AsmError HostStmt :=
  match regOfName r, note with
  | none, _ => .error .notALine
  | some reg, none => .ok (.line (.rd reg))
  | some reg, some imm =>
    match numeral imm with
    | some n => .ok (.line (.rdExpect reg n))
    | none => .error .notALine

/-- A pseudo-instruction of one number. -/
def parseOne (make : Nat → Pseudo) (imm : List Char) : Except AsmError HostStmt :=
  match numeral imm with
  | some n => .ok (.pseudo (make n))
  | none => .error .notALine

/-- The statement of a line of words and quoted characters (R102, R103). -/
def parseTokens : List Token → Except AsmError HostStmt
  | [.word m] =>
    match mnemonicNames.lookup m with
    | some i => .ok (.line (.cmd i))
    | none => .error .notALine
  | [.word k, .word x] =>
    if k = "RD".toList then parseRd x none
    else if k = "ENCODE.FOR".toList then parseOne .encodeFor x
    else if k = "DECODE.FOR".toList then parseOne .decodeFor x
    else if k = "SYM".toList then parseOne .sym x
    else if k = "IDX".toList then parseOne .idx x
    else .error .notALine
  | [.word k, .quoted cs] =>
    if k = "IDX".toList then
      match cs with
      | [c] => .ok (.pseudo (.idx c.toNat))
      | _ => .error .notALine
    else .error .notALine
  | [.word k, .word x, .word arrow, .word y] =>
    if k = "RD".toList ∧ arrow = "->".toList then parseRd x (some y) else .error .notALine
  | [.word k, .word x, .comma, .word y] =>
    if k = "WR".toList then parseWr x y
    else if k = "ENC".toList then
      match numeral x with
      | some n => parseOne (.enc n) y
      | none => .error .notALine
    else .error .notALine
  | [.word k, .quoted cs, .comma, .word y] =>
    if k = "DEC".toList then parseOne (.dec (cs.map Char.toNat)) y else .error .notALine
  | _ => .error .notALine

/-- One line of text: a statement, or nothing when it is blank or only a comment. -/
def parseLine (cs : List Char) : Except AsmError (Option HostStmt) :=
  match tokens none [] cs with
  | [] => .ok none
  | t :: ts =>
    match parseTokens (t :: ts) with
    | .ok q => .ok (some q)
    | .error e => .error e

/-- The statements of a program text, given line by line. -/
def parseProgram : List (List Char) → Except AsmError (List HostStmt)
  | [] => .ok []
  | l :: ls =>
    match parseLine l with
    | .error e => .error e
    | .ok q =>
      match parseProgram ls with
      | .error e => .error e
      | .ok qs => .ok (q.toList ++ qs)

end Sys2Proof.Machine
end

