-- ==== Sys2Proof/Machine/HostLibrary.lean ====
section
/-! DEFINITION. The host library's duties for inputs that no register can hold (R208, decision D26): each is reported by
the host itself, without any access to the block, and nothing is truncated or wrapped into a register. -/

namespace Sys2Proof.Machine

/-- A number a caller may pass: an integer, of any sign and size, or no integer at all (R208). -/
inductive HostNumber where
  | integer (z : Int)
  | notInteger
  deriving DecidableEq, Repr

/-- The error the host library reports to its caller (R208). -/
inductive HostReport where
  | outOfRange
  | widthError
  | invalidLength
  /-- The block reported UNKNOWN_SYMBOL: the original character of the caller, whole (R208). -/
  | unknownSymbol (char : Nat)
  /-- The values read are none this call leaves; another host came between (R205). DESIGN CHOICE, log entry 24. -/
  | unexpected
  deriving DecidableEq, Repr

/-- An integer of a caller as a DIN value, or OutOfRange when DIN cannot hold it (R208, R211). -/
def dinValue : HostNumber → Except HostReport Word
  | .notInteger => .error .outOfRange
  | .integer z => if 0 ≤ z ∧ z < 2 ^ 32 then .ok (BitVec.ofInt 32 z) else .error .outOfRange

/-- A width as a WIDTH field, or the width error when the field cannot hold it (R208). -/
def widthField (w : Int) : Except HostReport (BitVec 3) :=
  if 0 ≤ w ∧ w < 8 then .ok (BitVec.ofInt 3 w) else .error .widthError

/-- A string's length as an SLEN value, or InvalidLength when SLEN cannot hold it (R208). -/
def slenValue (s : List Nat) : Except HostReport Word :=
  if s.length < 2 ^ 32 then .ok (BitVec.ofNat 32 s.length) else .error .invalidLength

/-- encodeFor(w)(n) by the library: the accesses of `ENC` with the selected width, or the host's own report. The order
of the two checks is the model's: DESIGN CHOICE, log entry 20. -/
def libraryEncode (p : Params) (w : Int) (n : HostNumber) : Except HostReport (List Access) :=
  match widthField w with
  | .error e => .error e
  | .ok wf =>
    match dinValue n with
    | .error e => .error e
    | .ok v =>
      .ok [writeAccess p .din v, writeAccess p .cmd (wordOf { rsvd := 0#25, width := wf, op := 1#4 }),
           readAccess p .status, readAccess p .sout0, readAccess p .sout1]

/-- decodeFor(w)(s) by the library: the accesses of `DEC` with the selected width and a read of ERRPOS, or the host's own
report. The order of the two checks is the model's: DESIGN CHOICE, log entry 20; so is the read of ERRPOS in every call:
log entry 24. -/
def libraryDecode (p : Params) (w : Int) (s : List Nat) : Except HostReport (List Access) :=
  match widthField w with
  | .error e => .error e
  | .ok wf =>
    match slenValue s with
    | .error e => .error e
    | .ok len =>
      .ok [writeAccess p .sin0 (stringChars s).word0, writeAccess p .sin1 (stringChars s).word1,
           writeAccess p .slen len, writeAccess p .cmd (wordOf { rsvd := 0#25, width := wf, op := 2#4 }),
           readAccess p .status, readAccess p .dout, readAccess p .errPos]

/-- symbolAt(i) by the library: the accesses of `SYM` (R103), or OutOfRange when DIN cannot hold the index. R208 speaks of
"an integer to encode" and R211 of any integer a caller passes; whether an index counts is open. Here it does: DESIGN
CHOICE, log entry 26. -/
def librarySymbol (p : Params) (i : HostNumber) : Except HostReport (List Access) :=
  match dinValue i with
  | .error e => .error e
  | .ok v =>
    .ok [writeAccess p .din v, writeAccess p .cmd (encode .symbolAt), readAccess p .status, readAccess p .sout0]

/-- indexOf(c) by the library: the accesses of `IDX`, with a code above 0xFF written as 0x00 (R208). -/
def libraryIndex (p : Params) (c : Nat) : List Access :=
  [writeAccess p .sin0 ((charByte c).setWidth 32), writeAccess p .cmd (encode .indexOf), readAccess p .status,
   readAccess p .dout]

/-- STATUS of a command that succeeded (R25). -/
def statusSuccess : Word := 0x100#32

/-- STATUS of a command that failed with this error (R25, R171). -/
def statusOf (k : ErrKind) : Word := k.code.setWidth 32

/-- The character of the caller's string at the position the block reported in ERRPOS (R208). -/
def originalCharacter (s : List Nat) (errPos : Word) : Option Nat := s[errPos.toNat]?

/-- The report of an unknown symbol: the original character (R208). -/
def unknownReport (c : Option Nat) : HostReport :=
  match c with
  | some c => .unknownSymbol c
  | none => .unexpected

/-- What decodeFor answers its caller, from the values its reads of STATUS, DOUT and ERRPOS returned: the integer, or
the error of the block, with the original character when that is UNKNOWN_SYMBOL (R171, R208). Log entry 24. -/
def decodeReport (s : List Nat) : List Word → Except HostReport Word
  | [status, dout, errPos] =>
    if status = statusSuccess then .ok dout
    else if status = statusOf .unknownSymbol then .error (unknownReport (originalCharacter s errPos))
    else if status = statusOf .invalidLength then .error .invalidLength
    else if status = statusOf .badWidth then .error .widthError
    else .error .unexpected
  | _ => .error .unexpected

/-- What indexOf answers its caller, from the values its reads of STATUS and DOUT returned (R171, R208). Log entry 24. -/
def indexReport (c : Nat) : List Word → Except HostReport Word
  | [status, dout] =>
    if status = statusSuccess then .ok dout
    else if status = statusOf .unknownSymbol then .error (.unknownSymbol c)
    else .error .unexpected
  | _ => .error .unexpected

end Sys2Proof.Machine
end

