-- ==== Sys2Proof/Safety.lean ====
section
/-! DEFINITION. What a safe run is, in the terms claims use: the launch premises of R212, the accesses the block serves
(R177), and the end of a run (R210). -/

namespace Sys2Proof.Safety

open Sys2Proof.Machine

/-- RESET_APPLIED (R212): the storage is that of R43, and reset has been applied and released. -/
def ResetApplied (s : State) : Prop :=
  s.operands = Operands.reset ∧ s.results = Results.reset ∧ s.resetPhase = .released

/-- The registers a host may write: CMD and the operand registers (R23). -/
def writable : Reg → Bool
  | .cmd => true
  | .din => true
  | .slen => true
  | .sin0 => true
  | .sin1 => true
  | .status => false
  | .dout => false
  | .soutLen => false
  | .sout0 => false
  | .sout1 => false
  | .errVal => false
  | .errLim => false
  | .errPos => false
  | .separator => false
  | .alphabet _ => false

/-- The access has none of the four faults of R177 and lies in the window (R60). -/
def served (p : Params) (a : Access) : Prop :=
  ∃ r : Reg, a.addr = p.base + r.offset ∧ a.size = 4 ∧ a.byteEnables = 0xF#4 ∧
    (∀ v, a.kind = .write v → writable r = true)

/-- The accesses of a queue that host `h` issued, in order of arrival. -/
def accessesOf (h : Nat) : List Event → List Access
  | [] => []
  | .access a :: rest => if a.host = h then a :: accessesOf h rest else accessesOf h rest
  | .resetAssert :: rest => accessesOf h rest
  | .resetRelease :: rest => accessesOf h rest
  | .powerUp :: rest => accessesOf h rest

/-- The number of steps until the last access of host `h` in the queue has been performed, the end of its run (R210). -/
def runLength (h : Nat) : List Event → Nat
  | [] => 0
  | e :: rest => if accessesOf h (e :: rest) = [] then 0 else runLength h rest + 1

/-- EXCLUSIVE_HOST (R212, R205): no access of another host arrives between the first and the last access of host `h`. -/
def ExclusiveHost (h : Nat) (s : State) : Prop :=
  ∀ (before between after : List Event) (a b : Access),
    s.pending = before ++ .access a :: (between ++ .access b :: after) → a.host = h → b.host = h →
    ∀ c, .access c ∈ between → c.host = h

/-- DEVICE_MAPPING (R212, R203, R76, R80): the window is where host `h` takes it to be, so each of its accesses lies in
it, and its accesses reach the block as the program issues them: in program order, none merged, dropped, repeated or
answered from a cache. -/
def DeviceMapping (h : Nat) (program : List Access) (s : State) : Prop :=
  accessesOf h s.pending = program ∧ ∀ a ∈ program, s.params.base ≤ a.addr ∧ a.addr < s.params.base + 256

/-- The programs of host `h` that ended faulted (R178). -/
def faultsOf (h : Nat) (l : List ProgramFault) : List ProgramFault := l.filter fun f => f.host == h

/-- NO_FAULT (R212, R210): no step up to the last access of host `h` stops the machine, and no access of that host gets
a bus error. -/
def NoFault (h : Nat) (s : State) : Prop :=
  ∃ t, Sys2Proof.core.run (runLength h s.pending) s = .next t ∧ faultsOf h t.faults = faultsOf h s.faults

/-- The launch premises of R212 for the program of host `h`, in the state in which its first access is the next to
arrive. -/
structure LaunchPremises (h : Nat) (program : List Access) (s : State) : Prop where
  atFirstAccess : program = [] ∨ s.pending.head? = program.head?.map Event.access
  resetApplied  : ResetApplied s
  exclusiveHost : ExclusiveHost h s
  deviceMapping : DeviceMapping h program s
  noFault       : NoFault h s

/-- A run from `s` has ended in the end state `t`: its last access has completed, and no access got a bus error, since a
faulted run has no end state (R210). -/
def RunEnded (s t : State) : Prop := t.pending = [] ∧ t.faults = s.faults

/-- The result registers are as some command or reset leaves them (R25, R26, R32 to R37): the legal contents whenever
reset has been applied. -/
def LegalResults (r : Results) : Prop :=
  r = Results.reset ∨
  (r.rvalid = true ∧ r.errCode = 0#3 ∧ r.errVal = 0#32 ∧ r.errLim = 0#32 ∧ r.errPos = 0#3 ∧ r.soutLen ≤ 5#3 ∧
    r.dout < 0x40000000#32 ∧ (r.dout = 0#32 ∨ r.soutLen = 0#3) ∧
    (∀ k, k < 5 → (k < r.soutLen.toNat → REV (r.sout.toList.getD k 0#8) ≠ none) ∧
      (r.soutLen.toNat ≤ k → r.sout.toList.getD k 0#8 = 0#8))) ∨
  (r.rvalid = false ∧ 1#3 ≤ r.errCode ∧ r.errCode ≤ 5#3 ∧ r.dout = 0#32 ∧ r.soutLen = 0#3 ∧ r.sout = Chars.zero ∧
    r.errPos ≤ 4#3 ∧ (r.errPos ≠ 0#3 → r.errCode = 3#3))

/-- The value ranges of the 3-bit registers, which hold before the first reset too (R20, R26; log entry 21). -/
def InRange (r : Results) : Prop := r.errCode ≤ 5#3 ∧ r.soutLen ≤ 5#3 ∧ r.errPos ≤ 4#3

/-- The machine's invariant: the 3-bit registers are in their ranges, once reset has been applied the result registers
are legal, and while it is asserted the whole storage holds its reset values (R20, R25, R26, R200). -/
def Inv (s : State) : Prop :=
  InRange s.results ∧
  (s.resetPhase ≠ .unreset → LegalResults s.results) ∧
  (s.resetPhase = .asserted → s.operands = Operands.reset ∧ s.results = Results.reset)

end Sys2Proof.Safety
end

