-- ==== Sys2Proof/Certificates/Slice0/Obligations.lean ====
section
/-! DEFINITION. The statements for the provers, from the numbered rules of spec/. The helpers under Sys2Proof.Claims
write down once, from the spec's own text and not from the model's operations, what a commit leaves, what a read
returns, and which operands a command reads. -/

namespace Sys2Proof.Claims

open Sys2Proof.Machine

/-- The state after a successful command (R99): every result register overwritten, nothing else changed. -/
def success (s : State) (dout : Word) (len : BitVec 3) (sout : Chars) : State :=
  { s with results := { errCode := 0#3, rvalid := true, dout := dout, soutLen := len, sout := sout,
                        errVal := 0#32, errLim := 0#32, errPos := 0#3 } }

/-- The state after a failed command (R181): every result register overwritten, nothing else changed. -/
def failure (s : State) (code : BitVec 3) (val lim : Word) (pos : BitVec 3) : State :=
  { s with results := { errCode := code, rvalid := false, dout := 0#32, soutLen := 0#3,
                        sout := { c0 := 0#8, c1 := 0#8, c2 := 0#8, c3 := 0#8, c4 := 0#8 },
                        errVal := val, errLim := lim, errPos := pos } }

/-- SYM[n[lo+5:lo]], the symbol of one six-bit group (R134 to R137). -/
def symAt (n : Word) (lo : Nat) : Byte := SYM (n.extractLsb' lo 6)

/-- The weight r << (6 * j) of an index (R150). -/
def weigh (r : BitVec 6) (j : Nat) : Word := r.setWidth 32 <<< (6 * j)

/-- Two operand sets agree on what the command reads (R94). -/
def AgreeOnReads (i : Instr) (a b : Operands) : Prop :=
  match i with
  | .encode1 => a.din = b.din
  | .encode2 => a.din = b.din
  | .encode3 => a.din = b.din
  | .encode4 => a.din = b.din
  | .encode5 => a.din = b.din
  | .symbolAt => a.din = b.din
  | .indexOf => a.sin.c0 = b.sin.c0
  | .decode1 => a.slen = b.slen ∧ a.sin.c0 = b.sin.c0
  | .decode2 => a.slen = b.slen ∧ a.sin.c0 = b.sin.c0 ∧ a.sin.c1 = b.sin.c1
  | .decode3 => a.slen = b.slen ∧ a.sin.c0 = b.sin.c0 ∧ a.sin.c1 = b.sin.c1 ∧ a.sin.c2 = b.sin.c2
  | .decode4 =>
    a.slen = b.slen ∧ a.sin.c0 = b.sin.c0 ∧ a.sin.c1 = b.sin.c1 ∧ a.sin.c2 = b.sin.c2 ∧ a.sin.c3 = b.sin.c3
  | .decode5 => a.slen = b.slen ∧ a.sin = b.sin

/-- Four bytes as one little-endian word, the first in bits [7:0] (R62). -/
def fourBytes (b0 b1 b2 b3 : Byte) : Word :=
  BitVec.ofNat 32 (b0.toNat + 2 ^ 8 * b1.toNat + 2 ^ 16 * b2.toNat + 2 ^ 24 * b3.toNat)

/-- The value of an admitted read, by offset, or none where no register is mapped (R69, R61). -/
def readValue (s : State) (o : Nat) : Option Word :=
  if o = 0x00 then some 0#32
  else if o = 0x04 then some (BitVec.ofNat 32 (256 * s.results.rvalid.toNat + s.results.errCode.toNat))
  else if o = 0x08 then some s.operands.din
  else if o = 0x0C then some s.operands.slen
  else if o = 0x10 then
    some (fourBytes s.operands.sin.c0 s.operands.sin.c1 s.operands.sin.c2 s.operands.sin.c3)
  else if o = 0x14 then some (BitVec.ofNat 32 s.operands.sin.c4.toNat)
  else if o = 0x18 then some s.results.dout
  else if o = 0x1C then some (BitVec.ofNat 32 s.results.soutLen.toNat)
  else if o = 0x20 then
    some (fourBytes s.results.sout.c0 s.results.sout.c1 s.results.sout.c2 s.results.sout.c3)
  else if o = 0x24 then some (BitVec.ofNat 32 s.results.sout.c4.toNat)
  else if o = 0x28 then some s.results.errVal
  else if o = 0x2C then some s.results.errLim
  else if o = 0x30 then some (BitVec.ofNat 32 s.results.errPos.toNat)
  else if o = 0x34 then some 0x2A#32
  else if 0x40 ≤ o ∧ o ≤ 0x7C ∧ o % 4 = 0 then
    some (fourBytes (SYM (BitVec.ofNat 6 (o - 0x40))) (SYM (BitVec.ofNat 6 (o - 0x40 + 1)))
      (SYM (BitVec.ofNat 6 (o - 0x40 + 2))) (SYM (BitVec.ofNat 6 (o - 0x40 + 3))))
  else none

/-- The admitted accesses of host `h` at an offset of the window: 32 bits wide, all byte enables set (R64). -/
def fullAccess (s : State) (h : Nat) (k : AccessKind) (o : Nat) : Access :=
  { kind := k, addr := s.params.base + o, size := 4, byteEnables := 0xF#4, host := h }

/-- The next event to arrive is `e`, the others are `rest`, and reset is not asserted. -/
def Arrives (s : State) (e : Event) (rest : List Event) : Prop :=
  s.pending = e :: rest ∧ s.resetPhase ≠ .asserted

/-- The events of a queue that are no access of host `h`, in order of arrival. -/
def othersOf (h : Nat) : List Event → List Event
  | [] => []
  | .access a :: rest => if a.host = h then othersOf h rest else .access a :: othersOf h rest
  | .resetAssert :: rest => .resetAssert :: othersOf h rest
  | .resetRelease :: rest => .resetRelease :: othersOf h rest
  | .powerUp :: rest => .powerUp :: othersOf h rest

/-- The state after a bus error of host `h` while `rest` is still to arrive: no block state changes (R177), the program
of that host has ended faulted and issues nothing more (R178, R210), and all else is still to arrive (R75, R189). The
cause and the form of the record are the model's (log entries 6 and 25). -/
def programFaulted (s : State) (h : Nat) (cause : BusErrorCause) (data : Option Word) (rest : List Event) : State :=
  { s with
    pending := othersOf h rest,
    faults := s.faults ++ [{ host := h, cause := cause, data := data, reaction := s.params.hostBusError }] }

/-- The accesses of a queue that are reads. -/
def readCount : List Event → Nat
  | [] => 0
  | .access a :: rest => (if a.kind = .read then 1 else 0) + readCount rest
  | .resetAssert :: rest => readCount rest
  | .resetRelease :: rest => readCount rest
  | .powerUp :: rest => readCount rest

/-- A string of N symbol codes, each with an index (R156). -/
def ValidString (w : Width) (l : List Byte) : Prop := l.length = w.digits ∧ ∀ b ∈ l, REV b ≠ none

/-- The state with its parameter RESET_KIND replaced (R200). -/
def withResetKind (k : ResetKind) (s : State) : State := { s with params := { s.params with resetKind := k } }

/-- The state with BASE moved to another page (R60). -/
def withPage (q : Nat) (s : State) : State := { s with params := { s.params with basePage := q } }

/-- The same event at a window of another page: the address keeps its offset (R60, R74). -/
def moveEvent (p : Params) (q : Nat) : Event → Event
  | .access a => .access { a with addr := 256 * q + (a.addr - p.base) }
  | .resetAssert => .resetAssert
  | .resetRelease => .resetRelease
  | .powerUp => .powerUp

/-- The same event from host `h` (R189). -/
def fromHost (h : Nat) : Event → Event
  | .access a => .access { a with host := h }
  | .resetAssert => .resetAssert
  | .resetRelease => .resetRelease
  | .powerUp => .powerUp

/-- The k-th character of a caller's string as the byte the host writes to SIN: 0x00 past the end, and for a code above
0xFF (R103, R208). -/
def sinByte (l : List Nat) (k : Nat) : Byte :=
  match l[k]? with
  | some c => if c ≤ 0xFF then BitVec.ofNat 8 c else 0#8
  | none => 0#8

/-- A caller's character is a symbol of the alphabet: its code fits 8 bits and has an index (R113, R208). -/
def IsSymbol (c : Nat) : Prop := c ≤ 0xFF ∧ REV (BitVec.ofNat 8 c) ≠ none

end Sys2Proof.Claims

section

open Sys2Proof Sys2Proof.Machine Sys2Proof.Safety Sys2Proof.Claims

/-! ### Command words -/

/-- R95: a word is a command exactly when it is one of the twelve words, each that of one command; so decoding and
encoding are inverse in both directions and every other of the 2^32 words is refused. -/
def Obligations.DecodeAndEncodeAgree : Prop :=
  (∀ (c : Word) (i : Instr), decodeCmd c = .ok i ↔ c = encode i) ∧
  (∀ (c : Word) (i : Instr), decodeCmd c = .ok i ↔
    (i, c) ∈ [(Instr.encode1, 0x00000011#32), (.encode2, 0x00000021#32), (.encode3, 0x00000031#32),
      (.encode4, 0x00000041#32), (.encode5, 0x00000051#32), (.decode1, 0x00000012#32), (.decode2, 0x00000022#32),
      (.decode3, 0x00000032#32), (.decode4, 0x00000042#32), (.decode5, 0x00000052#32), (.symbolAt, 0x00000003#32),
      (.indexOf, 0x00000004#32)]) ∧
  (∀ f : CmdFields, fieldsOf (wordOf f) = f) ∧ (∀ c : Word, wordOf (fieldsOf c) = c)

/-- R95: the twelve words with their OP and WIDTH, written out from the opcode map. -/
def Obligations.TwelveCommandWords : Prop :=
  [(Instr.encode1, 0x00000011#32, 1#4, 1#3), (.encode2, 0x00000021#32, 1#4, 2#3), (.encode3, 0x00000031#32, 1#4, 3#3),
   (.encode4, 0x00000041#32, 1#4, 4#3), (.encode5, 0x00000051#32, 1#4, 5#3), (.decode1, 0x00000012#32, 2#4, 1#3),
   (.decode2, 0x00000022#32, 2#4, 2#3), (.decode3, 0x00000032#32, 2#4, 3#3), (.decode4, 0x00000042#32, 2#4, 4#3),
   (.decode5, 0x00000052#32, 2#4, 5#3), (.symbolAt, 0x00000003#32, 3#4, 0#3),
   (.indexOf, 0x00000004#32, 4#4, 0#3)].Forall
    (fun (i, c, op, w) =>
      encode i = c ∧ decodeCmd c = .ok i ∧ fieldsOf c = { rsvd := 0#25, width := w, op := op })

/-- R96, R97: the four refusals in the order of the checks, on every word and in every state; `v / 128` is RSVD,
`v % 16` is OP and `v / 16 % 8` is WIDTH. -/
def Obligations.IllegalWordCommitsItsError : Prop :=
  ∀ (s : State) (v : Word),
    (v.toNat / 128 ≠ 0 ∨ v.toNat % 16 = 0 ∨ 4 < v.toNat % 16 →
      execute s v = .next (failure s 5#3 v 0#32 0#3)) ∧
    (v.toNat / 128 = 0 → (v.toNat % 16 = 1 ∨ v.toNat % 16 = 2) → (v.toNat / 16 = 0 ∨ 5 < v.toNat / 16) →
      execute s v = .next (failure s 4#3 (BitVec.ofNat 32 (v.toNat / 16)) 5#32 0#3)) ∧
    (v.toNat / 128 = 0 → (v.toNat % 16 = 3 ∨ v.toNat % 16 = 4) → v.toNat / 16 ≠ 0 →
      execute s v = .next (failure s 4#3 (BitVec.ofNat 32 (v.toNat / 16)) 0#32 0#3)) ∧
    (v.toNat / 128 = 0 →
      ((v.toNat % 16 = 1 ∨ v.toNat % 16 = 2) ∧ 1 ≤ v.toNat / 16 ∧ v.toNat / 16 ≤ 5 ∨
        (v.toNat % 16 = 3 ∨ v.toNat % 16 = 4) ∧ v.toNat / 16 = 0) →
      ∃ i, v = encode i ∧ execute s v = exec i s)

/-- R179 with R171: the error code that each of the 2^32 command words leaves, as one chain in order of priority;
`v % 16` is OP and `v / 16 % 8` is WIDTH. -/
def Obligations.ErrorCodeOfEveryCommandWord : Prop :=
  ∀ (s : State) (v : Word),
    ∃ t, execute s v = .next t ∧
      t.results.errCode =
        (if v.toNat / 128 ≠ 0 ∨ v.toNat % 16 = 0 ∨ 4 < v.toNat % 16 then 5#3
        else if v.toNat % 16 ≤ 2 ∧ (v.toNat / 16 % 8 = 0 ∨ 5 < v.toNat / 16 % 8) then 4#3
        else if 3 ≤ v.toNat % 16 ∧ v.toNat / 16 % 8 ≠ 0 then 4#3
        else if v.toNat % 16 = 2 ∧ s.operands.slen.toNat ≠ v.toNat / 16 % 8 then 2#3
        else if v.toNat % 16 = 1 ∧ 2 ^ (6 * (v.toNat / 16 % 8)) ≤ s.operands.din.toNat then 1#3
        else if v.toNat % 16 = 2 ∧ (∃ b ∈ s.operands.sin.toList.take (v.toNat / 16 % 8), REV b = none) then 3#3
        else if v.toNat % 16 = 3 ∧ 63 < s.operands.din.toNat then 1#3
        else if v.toNat % 16 = 4 ∧ REV s.operands.sin.c0 = none then 3#3
        else 0#3)

/-! ### The tables -/

/-- R110: SYM is the 64-character string of the rule, each code the US-ASCII code of its character (log entry 11), and
has the closed form the rule derives. -/
def Obligations.SymbolTableIsTheAlphabet : Prop :=
  (∀ i : BitVec 6, (SYM i).toNat =
    ("0123456789ABCDEFGHIJKLMNOPQRSTUVWXYZabcdefghijklmnopqrstuvwxyz-_".toList.getD i.toNat ' ').toNat) ∧
  (∀ i : BitVec 6, (SYM i).toNat =
    if i.toNat ≤ 9 then 0x30 + i.toNat
    else if i.toNat ≤ 35 then 0x41 + (i.toNat - 10)
    else if i.toNat ≤ 61 then 0x61 + (i.toNat - 36)
    else if i.toNat = 62 then 0x2D
    else 0x5F)

/-- R113: REV on every 8-bit code, computed without truncation. -/
def Obligations.ReverseIndexOfEveryCode : Prop :=
  ∀ b : Byte, (REV b).map BitVec.toNat =
    if 0x30 ≤ b.toNat ∧ b.toNat ≤ 0x39 then some (b.toNat - 0x30)
    else if 0x41 ≤ b.toNat ∧ b.toNat ≤ 0x5A then some (b.toNat - 0x41 + 10)
    else if 0x61 ≤ b.toNat ∧ b.toNat ≤ 0x7A then some (b.toNat - 0x61 + 36)
    else if b.toNat = 0x2D then some 62
    else if b.toNat = 0x5F then some 63
    else none

/-- R114: SYM and REV are inverse, and exactly 64 of the 256 codes have an index. -/
def Obligations.TablesAreInverse : Prop :=
  (∀ i : BitVec 6, REV (SYM i) = some i) ∧
  (∀ (b : Byte) (i : BitVec 6), REV b = some i → SYM i = b) ∧
  ((List.range 256).filter fun n => (REV (BitVec.ofNat 8 n)).isSome).length = 64

/-- R115: the sixteen ALPHABET words, in every state, and their offsets. -/
def Obligations.AlphabetRegisterWords : Prop :=
  ∀ s : State,
    (List.finRange 16).map (fun j => memRead s (.alphabet j)) =
      [0x33323130#32, 0x37363534#32, 0x42413938#32, 0x46454443#32, 0x4A494847#32, 0x4E4D4C4B#32, 0x5251504F#32,
       0x56555453#32, 0x5A595857#32, 0x64636261#32, 0x68676665#32, 0x6C6B6A69#32, 0x706F6E6D#32, 0x74737271#32,
       0x78777675#32, 0x5F2D7A79#32] ∧
    (∀ j : Fin 16, regAt (0x40 + 4 * j.val) = some (.alphabet j))

/-- R112, R138: no command word leaves the separator among the characters it produces, and the separator has no
index; the SEPARATOR register reads its code. -/
def Obligations.SeparatorNeverProduced : Prop :=
  REV 0x2A#8 = none ∧ (∀ s : State, memRead s .separator = 0x2A#32) ∧
  ∀ (s : State) (v : Word),
    ∃ t, execute s v = .next t ∧ ∀ b ∈ t.results.sout.toList.take t.results.soutLen.toNat, b ≠ 0x2A#8

/-! ### SYMBOL_AT and INDEX_OF -/

/-- R117: SYMBOL_AT on every DIN, its word, its agreement with ENCODE1, and the error of every other word with OP = 3. -/
def Obligations.SymbolAtResult : Prop :=
  encode .symbolAt = 0x00000003#32 ∧
  ∀ s : State,
    (s.operands.din ≤ 63#32 →
      exec .symbolAt s =
        .next (success s 0#32 1#3 { c0 := symAt s.operands.din 0, c1 := 0#8, c2 := 0#8, c3 := 0#8, c4 := 0#8 })) ∧
    (63#32 < s.operands.din → exec .symbolAt s = .next (failure s 1#3 s.operands.din 63#32 0#3)) ∧
    exec .symbolAt s = exec .encode1 s ∧
    (∀ v : Word, v.toNat % 16 = 3 → v ≠ 3#32 →
      ∃ code val lim, (code = 4#3 ∨ code = 5#3) ∧ execute s v = .next (failure s code val lim 0#3))

/-- R118: INDEX_OF on every SIN[0], its word, and the error of every other word with OP = 4; SLEN and SIN[1..4] do not
occur. -/
def Obligations.IndexOfResult : Prop :=
  encode .indexOf = 0x00000004#32 ∧
  ∀ s : State,
    (∀ r, REV s.operands.sin.c0 = some r →
      exec .indexOf s = .next (success s (BitVec.ofNat 32 r.toNat) 0#3 Chars.zero)) ∧
    (REV s.operands.sin.c0 = none →
      exec .indexOf s = .next (failure s 3#3 (BitVec.ofNat 32 s.operands.sin.c0.toNat) 1#32 0#3)) ∧
    (∀ v : Word, v.toNat % 16 = 4 → v ≠ 4#32 →
      ∃ code val lim, (code = 4#3 ∨ code = 5#3) ∧ execute s v = .next (failure s code val lim 0#3))

/-- R114 at the bus: SYMBOL_AT of an index, then INDEX_OF of the character read from SOUT0, gives the index back; and
INDEX_OF of a symbol, then SYMBOL_AT of the index read from DOUT, gives the symbol back. -/
def Obligations.SymbolAndIndexCommandsInvert : Prop :=
  (∀ s : State, s.operands.din ≤ 63#32 →
    ∃ t u v, exec .symbolAt s = .next t ∧ memWrite t (memRead t .sout0) .sin0 = .ok (.next u) ∧ exec .indexOf u = .next v ∧
      memRead v .dout = s.operands.din ∧ memRead v .status = 0x100#32) ∧
  (∀ s : State, REV s.operands.sin.c0 ≠ none →
    ∃ t u v, exec .indexOf s = .next t ∧ memWrite t (memRead t .dout) .din = .ok (.next u) ∧ exec .symbolAt u = .next v ∧
      memRead v .sout0 = BitVec.ofNat 32 s.operands.sin.c0.toNat ∧ memRead v .status = 0x100#32)

/-! ### The encoder -/

/-- R133: ENCODE1 on every DIN, and its word; the results equal those of SYMBOL_AT. -/
def Obligations.Encode1Result : Prop :=
  encode .encode1 = 0x00000011#32 ∧
  ∀ s : State,
    (s.operands.din ≤ 0x3F#32 →
      exec .encode1 s = .next (success s 0#32 1#3
        { c0 := symAt s.operands.din 0, c1 := 0#8, c2 := 0#8, c3 := 0#8, c4 := 0#8 })) ∧
    (0x3F#32 < s.operands.din → exec .encode1 s = .next (failure s 1#3 s.operands.din 0x3F#32 0#3)) ∧
    exec .encode1 s = exec .symbolAt s

/-- R134: ENCODE2 on every DIN, and its word. -/
def Obligations.Encode2Result : Prop :=
  encode .encode2 = 0x00000021#32 ∧
  ∀ s : State,
    (s.operands.din ≤ 0xFFF#32 →
      exec .encode2 s = .next (success s 0#32 2#3
        { c0 := symAt s.operands.din 6, c1 := symAt s.operands.din 0, c2 := 0#8, c3 := 0#8, c4 := 0#8 })) ∧
    (0xFFF#32 < s.operands.din → exec .encode2 s = .next (failure s 1#3 s.operands.din 0xFFF#32 0#3))

/-- R135: ENCODE3 on every DIN, and its word. -/
def Obligations.Encode3Result : Prop :=
  encode .encode3 = 0x00000031#32 ∧
  ∀ s : State,
    (s.operands.din ≤ 0x3FFFF#32 →
      exec .encode3 s = .next (success s 0#32 3#3
        { c0 := symAt s.operands.din 12, c1 := symAt s.operands.din 6, c2 := symAt s.operands.din 0, c3 := 0#8, c4 := 0#8 })) ∧
    (0x3FFFF#32 < s.operands.din → exec .encode3 s = .next (failure s 1#3 s.operands.din 0x3FFFF#32 0#3))

/-- R136: ENCODE4 on every DIN, and its word. -/
def Obligations.Encode4Result : Prop :=
  encode .encode4 = 0x00000041#32 ∧
  ∀ s : State,
    (s.operands.din ≤ 0xFFFFFF#32 →
      exec .encode4 s = .next (success s 0#32 4#3
        { c0 := symAt s.operands.din 18, c1 := symAt s.operands.din 12, c2 := symAt s.operands.din 6, c3 := symAt s.operands.din 0, c4 := 0#8 })) ∧
    (0xFFFFFF#32 < s.operands.din → exec .encode4 s = .next (failure s 1#3 s.operands.din 0xFFFFFF#32 0#3))

/-- R137: ENCODE5 on every DIN, and its word; it is out of range exactly when DIN[31:30] is not 0. -/
def Obligations.Encode5Result : Prop :=
  encode .encode5 = 0x00000051#32 ∧
  ∀ s : State,
    (s.operands.din ≤ 0x3FFFFFFF#32 →
      exec .encode5 s = .next (success s 0#32 5#3
        { c0 := symAt s.operands.din 24, c1 := symAt s.operands.din 18, c2 := symAt s.operands.din 12, c3 := symAt s.operands.din 6, c4 := symAt s.operands.din 0 })) ∧
    (0x3FFFFFFF#32 < s.operands.din → exec .encode5 s = .next (failure s 1#3 s.operands.din 0x3FFFFFFF#32 0#3)) ∧
    (0x3FFFFFFF#32 < s.operands.din ↔ s.operands.din.extractLsb' 30 2 ≠ 0#2)

/-- R132: a value of at most 6N bits is encoded, and any other is OUT_OF_RANGE, never truncated, with the limits of R6. -/
def Obligations.EncodeSucceedsExactlyInRange : Prop :=
  ∀ (w : Width) (s : State),
    ∃ t, exec (encodeInstr w) s = .next t ∧
      (t.results.rvalid = true ↔ s.operands.din.toNat ≤ 2 ^ (6 * w.digits) - 1) ∧
      (t.results.rvalid = false → t.results.errCode = 1#3 ∧ t.results.errVal = s.operands.din ∧
        t.results.errLim.toNat = 2 ^ (6 * w.digits) - 1)

/-- R138: exactly N symbols, each of them in SYM and none the separator, one per group of six bits with no leading group
dropped, 0x00 past them, one string per value; and the byte order of strings is not the numeric order, since '-' is below '0'. -/
def Obligations.EncodedStringProperties : Prop :=
  (∀ (w : Width) (s t : State), exec (encodeInstr w) s = .next t → t.results.rvalid = true →
    t.results.soutLen.toNat = w.digits ∧
    (∀ k, k < w.digits → REV (t.results.sout.toList.getD k 0#8) ≠ none ∧
      t.results.sout.toList.getD k 0#8 ≠ 0x2A#8) ∧
    (∀ k, k < w.digits → t.results.sout.toList.getD k 0#8 = symAt s.operands.din (6 * (w.digits - 1 - k))) ∧
    (∀ k, w.digits ≤ k → t.results.sout.toList.getD k 0#8 = 0#8)) ∧
  (∀ (w : Width) (s s' t t' : State), exec (encodeInstr w) s = .next t → exec (encodeInstr w) s' = .next t' →
    t.results.rvalid = true → t'.results.rvalid = true → t.results.sout = t'.results.sout →
    s.operands.din = s'.operands.din) ∧
  (SYM 62#6 < SYM 0#6)

/-! ### The decoder -/

/-- R151: DECODE1 on every SLEN and SIN, and its word: the length first, then the lowest bad position; with SLEN = 1 it leaves what INDEX_OF leaves. -/
def Obligations.Decode1Result : Prop :=
  encode .decode1 = 0x00000012#32 ∧
  ∀ s : State,
    (s.operands.slen ≠ 1#32 → exec .decode1 s = .next (failure s 2#3 s.operands.slen 1#32 0#3)) ∧
    (s.operands.slen = 1#32 → REV s.operands.sin.c0 = none →
      exec .decode1 s = .next (failure s 3#3 (BitVec.ofNat 32 s.operands.sin.c0.toNat) 1#32 0#3)) ∧
    (∀ r0, s.operands.slen = 1#32 → REV s.operands.sin.c0 = some r0 →
      exec .decode1 s = .next (success s (weigh r0 0) 0#3 Chars.zero)) ∧
    (s.operands.slen = 1#32 → exec .decode1 s = exec .indexOf s)

/-- R152: DECODE2 on every SLEN and SIN, and its word: the length first, then the lowest bad position. -/
def Obligations.Decode2Result : Prop :=
  encode .decode2 = 0x00000022#32 ∧
  ∀ s : State,
    (s.operands.slen ≠ 2#32 → exec .decode2 s = .next (failure s 2#3 s.operands.slen 2#32 0#3)) ∧
    (s.operands.slen = 2#32 → REV s.operands.sin.c0 = none →
      exec .decode2 s = .next (failure s 3#3 (BitVec.ofNat 32 s.operands.sin.c0.toNat) 2#32 0#3)) ∧
    (s.operands.slen = 2#32 → REV s.operands.sin.c0 ≠ none → REV s.operands.sin.c1 = none →
      exec .decode2 s = .next (failure s 3#3 (BitVec.ofNat 32 s.operands.sin.c1.toNat) 2#32 1#3)) ∧
    (∀ r0 r1, s.operands.slen = 2#32 → REV s.operands.sin.c0 = some r0 → REV s.operands.sin.c1 = some r1 →
      exec .decode2 s = .next (success s (weigh r0 1 ||| weigh r1 0) 0#3 Chars.zero))

/-- R153: DECODE3 on every SLEN and SIN, and its word: the length first, then the lowest bad position. -/
def Obligations.Decode3Result : Prop :=
  encode .decode3 = 0x00000032#32 ∧
  ∀ s : State,
    (s.operands.slen ≠ 3#32 → exec .decode3 s = .next (failure s 2#3 s.operands.slen 3#32 0#3)) ∧
    (s.operands.slen = 3#32 → REV s.operands.sin.c0 = none →
      exec .decode3 s = .next (failure s 3#3 (BitVec.ofNat 32 s.operands.sin.c0.toNat) 3#32 0#3)) ∧
    (s.operands.slen = 3#32 → REV s.operands.sin.c0 ≠ none → REV s.operands.sin.c1 = none →
      exec .decode3 s = .next (failure s 3#3 (BitVec.ofNat 32 s.operands.sin.c1.toNat) 3#32 1#3)) ∧
    (s.operands.slen = 3#32 → REV s.operands.sin.c0 ≠ none → REV s.operands.sin.c1 ≠ none → REV s.operands.sin.c2 = none →
      exec .decode3 s = .next (failure s 3#3 (BitVec.ofNat 32 s.operands.sin.c2.toNat) 3#32 2#3)) ∧
    (∀ r0 r1 r2, s.operands.slen = 3#32 → REV s.operands.sin.c0 = some r0 → REV s.operands.sin.c1 = some r1 → REV s.operands.sin.c2 = some r2 →
      exec .decode3 s = .next (success s (weigh r0 2 ||| weigh r1 1 ||| weigh r2 0) 0#3 Chars.zero))

/-- R154: DECODE4 on every SLEN and SIN, and its word: the length first, then the lowest bad position. -/
def Obligations.Decode4Result : Prop :=
  encode .decode4 = 0x00000042#32 ∧
  ∀ s : State,
    (s.operands.slen ≠ 4#32 → exec .decode4 s = .next (failure s 2#3 s.operands.slen 4#32 0#3)) ∧
    (s.operands.slen = 4#32 → REV s.operands.sin.c0 = none →
      exec .decode4 s = .next (failure s 3#3 (BitVec.ofNat 32 s.operands.sin.c0.toNat) 4#32 0#3)) ∧
    (s.operands.slen = 4#32 → REV s.operands.sin.c0 ≠ none → REV s.operands.sin.c1 = none →
      exec .decode4 s = .next (failure s 3#3 (BitVec.ofNat 32 s.operands.sin.c1.toNat) 4#32 1#3)) ∧
    (s.operands.slen = 4#32 → REV s.operands.sin.c0 ≠ none → REV s.operands.sin.c1 ≠ none → REV s.operands.sin.c2 = none →
      exec .decode4 s = .next (failure s 3#3 (BitVec.ofNat 32 s.operands.sin.c2.toNat) 4#32 2#3)) ∧
    (s.operands.slen = 4#32 → REV s.operands.sin.c0 ≠ none → REV s.operands.sin.c1 ≠ none → REV s.operands.sin.c2 ≠ none → REV s.operands.sin.c3 = none →
      exec .decode4 s = .next (failure s 3#3 (BitVec.ofNat 32 s.operands.sin.c3.toNat) 4#32 3#3)) ∧
    (∀ r0 r1 r2 r3, s.operands.slen = 4#32 → REV s.operands.sin.c0 = some r0 → REV s.operands.sin.c1 = some r1 → REV s.operands.sin.c2 = some r2 → REV s.operands.sin.c3 = some r3 →
      exec .decode4 s = .next (success s (weigh r0 3 ||| weigh r1 2 ||| weigh r2 1 ||| weigh r3 0) 0#3 Chars.zero))

/-- R155: DECODE5 on every SLEN and SIN, and its word: the length first, then the lowest bad position; DOUT[31:30] is always 0. -/
def Obligations.Decode5Result : Prop :=
  encode .decode5 = 0x00000052#32 ∧
  ∀ s : State,
    (s.operands.slen ≠ 5#32 → exec .decode5 s = .next (failure s 2#3 s.operands.slen 5#32 0#3)) ∧
    (s.operands.slen = 5#32 → REV s.operands.sin.c0 = none →
      exec .decode5 s = .next (failure s 3#3 (BitVec.ofNat 32 s.operands.sin.c0.toNat) 5#32 0#3)) ∧
    (s.operands.slen = 5#32 → REV s.operands.sin.c0 ≠ none → REV s.operands.sin.c1 = none →
      exec .decode5 s = .next (failure s 3#3 (BitVec.ofNat 32 s.operands.sin.c1.toNat) 5#32 1#3)) ∧
    (s.operands.slen = 5#32 → REV s.operands.sin.c0 ≠ none → REV s.operands.sin.c1 ≠ none → REV s.operands.sin.c2 = none →
      exec .decode5 s = .next (failure s 3#3 (BitVec.ofNat 32 s.operands.sin.c2.toNat) 5#32 2#3)) ∧
    (s.operands.slen = 5#32 → REV s.operands.sin.c0 ≠ none → REV s.operands.sin.c1 ≠ none → REV s.operands.sin.c2 ≠ none → REV s.operands.sin.c3 = none →
      exec .decode5 s = .next (failure s 3#3 (BitVec.ofNat 32 s.operands.sin.c3.toNat) 5#32 3#3)) ∧
    (s.operands.slen = 5#32 → REV s.operands.sin.c0 ≠ none → REV s.operands.sin.c1 ≠ none → REV s.operands.sin.c2 ≠ none → REV s.operands.sin.c3 ≠ none → REV s.operands.sin.c4 = none →
      exec .decode5 s = .next (failure s 3#3 (BitVec.ofNat 32 s.operands.sin.c4.toNat) 5#32 4#3)) ∧
    (∀ r0 r1 r2 r3 r4, s.operands.slen = 5#32 → REV s.operands.sin.c0 = some r0 → REV s.operands.sin.c1 = some r1 → REV s.operands.sin.c2 = some r2 → REV s.operands.sin.c3 = some r3 → REV s.operands.sin.c4 = some r4 →
      exec .decode5 s = .next (success s (weigh r0 4 ||| weigh r1 3 ||| weigh r2 2 ||| weigh r3 1 ||| weigh r4 0) 0#3 Chars.zero)) ∧
    (∀ t, exec .decode5 s = .next t → t.results.dout.extractLsb' 30 2 = 0#2)

/-- R150, R174: when DECODEN reports UNKNOWN_SYMBOL, ERRPOS is the lowest position without an index, ERRVAL its code and
ERRLIM the width; and it reports it whenever the length is right and some character read has no index. -/
def Obligations.UnknownSymbolIsTheLowestPosition : Prop :=
  ∀ (w : Width) (s : State), s.operands.slen.toNat = w.digits →
    (∃ b ∈ s.operands.sin.toList.take w.digits, REV b = none) →
    ∃ t, exec (decodeInstr w) s = .next t ∧ t.results.errCode = 3#3 ∧ t.results.errPos.toNat < w.digits ∧
      REV (s.operands.sin.toList.getD t.results.errPos.toNat 0#8) = none ∧
      (∀ j, j < t.results.errPos.toNat → REV (s.operands.sin.toList.getD j 0#8) ≠ none) ∧
      t.results.errVal.toNat = (s.operands.sin.toList.getD t.results.errPos.toNat 0#8).toNat ∧
      t.results.errLim.toNat = w.digits

/-- R156: a successful DECODEN leaves DOUT below 2^(6N), every string of N symbol codes is decoded, and every value below
2^(6N) is the result of exactly one of them. -/
def Obligations.DecodeIsABijection : Prop :=
  (∀ (w : Width) (s t : State), exec (decodeInstr w) s = .next t → t.results.rvalid = true →
    t.results.dout.toNat ≤ 2 ^ (6 * w.digits) - 1) ∧
  (∀ (w : Width) (s : State), s.operands.slen.toNat = w.digits →
    ValidString w (s.operands.sin.toList.take w.digits) →
    ∃ t, exec (decodeInstr w) s = .next t ∧ t.results.rvalid = true) ∧
  (∀ (w : Width) (v : Word), v.toNat ≤ 2 ^ (6 * w.digits) - 1 →
    ∃! l : List Byte, ValidString w l ∧
      ∀ s : State, s.operands.slen.toNat = w.digits → s.operands.sin.toList.take w.digits = l →
        exec (decodeInstr w) s = .next (success s v 0#3 Chars.zero))

/-- R157, first direction, with the host's own accesses: ENCODEN, copy SOUT0 to SIN0 and SOUT1 to SIN1, write SLEN, and
DECODEN gives the value back with STATUS 0x100; second direction: DECODEN, copy DOUT to DIN, and ENCODEN gives the
string back. -/
def Obligations.EncodeDecodeRoundTrip : Prop :=
  (∀ (w : Width) (s : State), s.operands.din.toNat ≤ 2 ^ (6 * w.digits) - 1 →
    ∃ t a b c v, exec (encodeInstr w) s = .next t ∧ memWrite t (memRead t .sout0) .sin0 = .ok (.next a) ∧
      memWrite a (memRead t .sout1) .sin1 = .ok (.next b) ∧ memWrite b (BitVec.ofNat 32 w.digits) .slen = .ok (.next c) ∧
      exec (decodeInstr w) c = .next v ∧ memRead v .dout = s.operands.din ∧ memRead v .status = 0x100#32) ∧
  (∀ (w : Width) (s : State), s.operands.slen.toNat = w.digits →
    ValidString w (s.operands.sin.toList.take w.digits) →
    ∃ t a v, exec (decodeInstr w) s = .next t ∧ memWrite t (memRead t .dout) .din = .ok (.next a) ∧
      exec (encodeInstr w) a = .next v ∧ memRead v .status = 0x100#32 ∧
      v.results.sout.toList.take w.digits = s.operands.sin.toList.take w.digits)

/-! ### Commits, frames and purity -/

/-- R98, R100: every word written to CMD answers a next state in which the operand registers, the reads so far, the
faulted programs, the pending accesses, the reset input and the parameters are as before, and every register that is no result register reads
as before. -/
def Obligations.CommandsWriteOnlyResults : Prop :=
  ∀ (s : State) (v : Word),
    ∃ t, execute s v = .next t ∧ t.operands = s.operands ∧ t.reads = s.reads ∧ t.faults = s.faults ∧ t.pending = s.pending ∧
      t.resetPhase = s.resetPhase ∧ t.params = s.params ∧ t.draws = s.draws ∧
      (∀ r : Reg, writable r = true ∨ (∃ j, r = .alphabet j) ∨ r = .separator → memRead t r = memRead s r)

/-- R99, R181, R27: every word written to CMD either succeeds with RVALID = 1, ERRCODE = 0 and the ERR registers 0, or
fails with RVALID = 0, a code in 1..5 and no result at all; SOUT is 0x00 from position SOUTLEN on. -/
def Obligations.EveryCommandEndsInOneCommit : Prop :=
  ∀ (s : State) (v : Word),
    ∃ t, execute s v = .next t ∧
      (t.results.rvalid = true ↔ t.results.errCode = 0#3) ∧ t.results.errCode ≤ 5#3 ∧
      (t.results.rvalid = true → t.results.errVal = 0#32 ∧ t.results.errLim = 0#32 ∧ t.results.errPos = 0#3) ∧
      (t.results.rvalid = false → t.results.dout = 0#32 ∧ t.results.soutLen = 0#3 ∧ t.results.sout = Chars.zero) ∧
      t.results.soutLen ≤ 5#3 ∧
      (∀ k, t.results.soutLen.toNat ≤ k → t.results.sout.toList.getD k 0#8 = 0#8)

/-- R101, R94: what a CMD write leaves in the result registers depends only on the word and on the operands its command
reads, whatever the two states hold besides. -/
def Obligations.ResultsDependOnlyOnOperandsRead : Prop :=
  ∀ (v : Word) (s s' : State), (∀ i, decodeCmd v = .ok i → AgreeOnReads i s.operands s'.operands) →
    ∃ t t', execute s v = .next t ∧ execute s' v = .next t' ∧ t.results = t'.results

/-- R72: repeating a CMD write, or a write of an operand register, leaves the state the first one left. -/
def Obligations.RepeatedWriteChangesNothing : Prop :=
  ∀ (s t : State) (r : Reg) (v : Word), memWrite s v r = .ok (.next t) → memWrite t v r = .ok (.next t)

/-- R25, R27, R171: after every CMD write STATUS is 256 * RVALID + ERRCODE of the results it left, so 0x100 after every
success and the bare error code, 1 to 5, after every failure. -/
def Obligations.StatusWordAfterCommand : Prop :=
  ∀ (s : State) (v : Word),
    ∃ t, execute s v = .next t ∧
      (memRead t .status).toNat = 256 * t.results.rvalid.toNat + t.results.errCode.toNat ∧
      (memRead t .status = 0x100#32 ∨
        (1 ≤ (memRead t .status).toNat ∧ (memRead t .status).toNat ≤ 5 ∧ t.results.rvalid = false)) ∧
      (memRead t .status = 0x100#32 ↔ t.results.rvalid = true)

/-! ### The register window -/

/-- R69, R66, R68, R39: the 32-bit read of every aligned offset, by any host: the register's value joins the values read
and nothing else changes, or, where nothing is mapped, a bus error whose data is 0 ends that host's program (that its
record carries a cause and the platform's reaction is the model's, log entries 6 and 25). -/
def Obligations.ReadOfEveryAlignedOffset : Prop :=
  ∀ (s : State) (h o : Nat) (rest : List Event), o < 256 → o % 4 = 0 →
    Arrives s (.access (fullAccess s h .read o)) rest →
    step s =
      match readValue s o with
      | some v => .next { s with pending := rest, reads := s.reads ++ [v] }
      | none => .next (programFaulted s h .unmapped (some 0#32) rest)

/-- R70, R67, R66, R31: the 32-bit write of every aligned offset, by any host: CMD runs its command, the four operand
registers store the value (SIN1 its low byte), and for every other register, which is read-only, and for the rest,
which is unmapped, a bus error ends that host's program (that its record carries a cause and the platform's reaction is
the model's, log entries 6 and 25, and that a refused write returns no data, log entry 19). -/
def Obligations.WriteOfEveryAlignedOffset : Prop :=
  ∀ (s : State) (h o : Nat) (v : Word) (rest : List Event), o < 256 → o % 4 = 0 →
    Arrives s (.access (fullAccess s h (.write v) o)) rest →
    step s =
      if o = 0x00 then execute { s with pending := rest } v
      else if o = 0x08 then .next { s with pending := rest, operands := { s.operands with din := v } }
      else if o = 0x0C then .next { s with pending := rest, operands := { s.operands with slen := v } }
      else if o = 0x10 then
        .next { s with pending := rest, operands := { s.operands with
          sin := { c0 := v.extractLsb' 0 8, c1 := v.extractLsb' 8 8, c2 := v.extractLsb' 16 8,
                   c3 := v.extractLsb' 24 8, c4 := s.operands.sin.c4 } } }
      else if o = 0x14 then
        .next { s with pending := rest, operands := { s.operands with
          sin := { s.operands.sin with c4 := v.extractLsb' 0 8 } } }
      else if o ≤ 0x34 ∨ (0x40 ≤ o ∧ o ≤ 0x7C) then .next (programFaulted s h .readOnly none rest)
      else .next (programFaulted s h .unmapped none rest)

/-- R64, R65: an access of the window that is not 32 bits wide, has partial byte enables or is misaligned gets a bus
error, whatever it targets, CMD included: no block state changes and the program that issued it ends faulted; a read's
data is 0. The causes, their order and the form of the record are the model's (log entries 6 and 25); that partial
enables refuse a read too and that a refused write returns no data are its inferences (log entry 19). -/
def Obligations.NarrowOrMisalignedAccessRefused : Prop :=
  ∀ (s : State) (a : Access) (rest : List Event),
    s.params.base ≤ a.addr → a.addr < s.params.base + 256 → Arrives s (.access a) rest →
    (a.size ≠ 4 ∨ a.byteEnables ≠ 0xF#4 →
      step s = .next (programFaulted s a.host .width (if a.kind = .read then some 0#32 else none) rest)) ∧
    (a.size = 4 → a.byteEnables = 0xF#4 → (a.addr - s.params.base) % 4 ≠ 0 →
      step s = .next (programFaulted s a.host .misaligned (if a.kind = .read then some 0#32 else none) rest))

/-- R177, R178, R75, R189: a bus error arises in exactly the four cases, that is, for exactly the accesses of the window
that are not served: no block state changes, the program that issued it ends faulted, and what other hosts and the
platform have still to do is still to arrive. Every served access answers a next state in which no program has ended
faulted (the form of the record: log entries 6 and 25). -/
def Obligations.BusErrorExactlyWhenNotServed : Prop :=
  ∀ (s : State) (a : Access) (rest : List Event),
    s.params.base ≤ a.addr → a.addr < s.params.base + 256 → Arrives s (.access a) rest →
    ((∃ c d, step s = .next (programFaulted s a.host c d rest)) ↔ ¬ served s.params a) ∧
    ((∃ t, step s = .next t ∧ t.faults = s.faults) ↔ served s.params a)

/-- R60: an address outside BASE .. BASE + 0xFF is not an access of this block (the refusal by name is the model's,
log entry 7). -/
def Obligations.OutsideWindowRefused : Prop :=
  ∀ (s : State) (a : Access) (rest : List Event),
    (a.addr < s.params.base ∨ s.params.base + 256 ≤ a.addr) → Arrives s (.access a) rest →
    step s = .refused (.outsideWindow a.addr)

/-- R28 to R31: what a host writes to an operand register it reads back, whole for DIN, SLEN and SIN0, and the low byte
for SIN1; and no other register reads differently. -/
def Obligations.OperandRegistersReadBack : Prop :=
  ∀ (s : State) (v : Word) (r : Reg), r = .din ∨ r = .slen ∨ r = .sin0 ∨ r = .sin1 →
    ∃ t, memWrite s v r = .ok (.next t) ∧
      memRead t r = (if r = .sin1 then v &&& 0xFF#32 else v) ∧
      (∀ q : Reg, q ≠ r → memRead t q = memRead s q) ∧ t.results = s.results ∧ t.reads = s.reads ∧ t.faults = s.faults

/-- R30, R31, R34, R62: character position k of SIN and of SOUT is byte lane k of its register, position 4 is lane 0 of
the second register, and the upper bits of the second register read 0. -/
def Obligations.CharactersSitInByteLanes : Prop :=
  ∀ s : State,
    (∀ k, k < 4 → (memRead s .sin0).extractLsb' (8 * k) 8 = s.operands.sin.toList.getD k 0#8 ∧
      (memRead s .sout0).extractLsb' (8 * k) 8 = s.results.sout.toList.getD k 0#8) ∧
    (memRead s .sin1).toNat = s.operands.sin.c4.toNat ∧ (memRead s .sout1).toNat = s.results.sout.c4.toNat

/-- R61, R23: the register map is one to one, and the mapped offsets are 0x00..0x34 and 0x40..0x7C in steps of 4; every
other offset is unmapped. -/
def Obligations.RegisterMapOneToOne : Prop :=
  (∀ (r : Reg) (o : Nat), regAt o = some r ↔ o = r.offset) ∧
  (∀ o : Nat, regAt o ≠ none ↔ o % 4 = 0 ∧ (o ≤ 0x34 ∨ 0x40 ≤ o ∧ o ≤ 0x7C))

/-- R74: the block decodes the offset alone: moving the window to another page, and the arriving access with it, changes
the outcome of the step only by that page. R189, R101: it tells no hosts apart: when another host issues the arriving
access, the storage, the values read and the fault's cause are the same, and so is the whole state unless the access is
refused, when it is that host's program that ends (R178). -/
def Obligations.OnlyTheOffsetIsDecoded : Prop :=
  ∀ (s : State) (e : Event) (rest : List Event), s.pending = e :: rest →
    (∀ a, e = .access a → s.params.base ≤ a.addr ∧ a.addr < s.params.base + 256) →
    (∀ q : Nat, step { withPage q s with pending := moveEvent s.params q e :: rest } =
      match step s with
      | .next t => .next (withPage q t)
      | .fault f => .fault f
      | .refused r => .refused r) ∧
    (∀ h : Nat,
      match step s with
      | .next t =>
        ∃ u, step { s with pending := fromHost h e :: rest } = .next u ∧ u.operands = t.operands ∧
          u.results = t.results ∧ u.reads = t.reads ∧ u.resetPhase = t.resetPhase ∧ u.params = t.params ∧
          u.draws = t.draws ∧ u.faults.map ProgramFault.cause = t.faults.map ProgramFault.cause ∧
          (t.faults = s.faults → u = t)
      | .fault f => step { s with pending := fromHost h e :: rest } = .fault f
      | .refused r => step { s with pending := fromHost h e :: rest } = .refused r)

/-! ### Steps -/

/-- R75, R98: when the next access to arrive is an admitted write of CMD, the step is exec of the command its word
decodes to, in the state that has received it, and nothing besides. -/
def Obligations.StepRunsTheDecodedCommand : Prop :=
  ∀ (s : State) (h : Nat) (v : Word) (i : Instr) (rest : List Event),
    Arrives s (.access (fullAccess s h (.write v) 0)) rest → decodeCmd v = .ok i →
    step s = exec i { s with pending := rest }

/-- The word placed by withFetchWord is the next command the machine runs, from every state (the model's form of a
host's CMD write, log entries 4 and 17). -/
def Obligations.PlacedWordRunsNext : Prop :=
  ∀ (s : State) (i : Instr),
    step (s.withFetchWord 32 (encode i).toNat) =
      exec i { s with resetPhase := if s.resetPhase = .asserted then .released else s.resetPhase }

/-- R204, R71, R75: a read of any register right after a CMD write returns the value the command left, whichever hosts
issue the two. -/
def Obligations.ReadAfterCommandSeesItsResult : Prop :=
  ∀ (s : State) (h k : Nat) (v : Word) (r : Reg) (rest : List Event),
    Arrives s (.access (fullAccess s h (.write v) 0)) (.access (fullAccess s k .read r.offset) :: rest) →
    ∃ t u w, execute s v = .next t ∧ step s = .next u ∧ step u = .next w ∧
      w.reads = s.reads ++ [memRead t r] ∧ w.results = t.results ∧ w.operands = s.operands ∧ w.faults = s.faults ∧
      w.pending = rest

/-- R21, R27, R206, R207: a step changes the result registers only when a CMD write, reset or power-up arrives, and the
operand registers only when a write of one of them, reset or power-up arrives. -/
def Obligations.OnlyItsWritersChangeARegister : Prop :=
  ∀ (s t : State), step s = .next t →
    (t.results ≠ s.results →
      ∃ e rest, s.pending = e :: rest ∧
        ((∃ a v, e = .access a ∧ a.kind = .write v ∧ a.addr = s.params.base) ∨
          e = .resetAssert ∨ e = .resetRelease ∨ e = .powerUp)) ∧
    (t.operands ≠ s.operands →
      ∃ e rest, s.pending = e :: rest ∧
        ((∃ a v r, e = .access a ∧ a.kind = .write v ∧ a.addr = s.params.base + Reg.offset r ∧
            (r = .din ∨ r = .slen ∨ r = .sin0 ∨ r = .sin1)) ∨
          e = .resetAssert ∨ e = .resetRelease ∨ e = .powerUp)) ∧
    t.params = s.params

/-- R20, R25, R26, R32 to R37, R200: the invariant of the machine holds after every step from a state where it holds. -/
def Obligations.EveryStepKeepsTheInvariant : Prop :=
  ∀ s t : State, Inv s → step s = .next t → Inv t

/-- The invariant holds at reset. -/
def Obligations.InvariantHoldsAtReset : Prop := Inv State.reset

/-- R26: no step brings ERRCODE to 6 or 7 (not even power-up, whose draws keep the range, log entry 21), every CMD write
leaves it at 5 or below, and so does reset. -/
def Obligations.ErrorCodesSixAndSevenNeverWritten : Prop :=
  (∀ s t : State, step s = .next t → t.results.errCode ≤ 5#3 ∨ t.results.errCode = s.results.errCode) ∧
  (∀ (s : State) (v : Word), ∃ t, execute s v = .next t ∧ t.results.errCode ≤ 5#3) ∧
  State.reset.results.errCode ≤ 5#3

/-- R209, R210, R75, R189: a queue of accesses of the window, of whichever hosts, runs to its end in at most as many
steps, whatever state it starts in; the programs that end faulted meanwhile are exactly those of the hosts with an access
that is not served, and what has been read stays. Where every access is served, each takes one step, none is faulted, and
every read adds one value. That a faulted program's queued accesses leave the queue is log entry 6. -/
def Obligations.ServedAccessesRunToTheEnd : Prop :=
  ∀ s : State, s.resetPhase ≠ .asserted →
    (∀ e ∈ s.pending, ∃ a, e = .access a ∧ s.params.base ≤ a.addr ∧ a.addr < s.params.base + 256) →
    ∃ t, Sys2Proof.core.run s.pending.length s = .next t ∧ t.pending = [] ∧ s.reads <+: t.reads ∧
      s.faults <+: t.faults ∧
      (∀ h, faultsOf h t.faults = faultsOf h s.faults ↔ ∀ a ∈ accessesOf h s.pending, served s.params a) ∧
      ((∀ a, .access a ∈ s.pending → served s.params a) →
        RunEnded s t ∧ t.reads.length = s.reads.length + readCount s.pending)

/-! ### Reset and power -/

/-- R43, R200: asserting reset, and releasing it while it is asserted, sets every storage register to 0 from every
state, STATUS then reads 0, and nothing but the reset input changes besides. -/
def Obligations.ResetZeroesTheStorage : Prop :=
  ∀ (s : State) (rest : List Event),
    (s.pending = .resetAssert :: rest ∨ (s.pending = .resetRelease :: rest ∧ s.resetPhase = .asserted) →
      ∃ t, step s = .next t ∧ t.operands.din = 0#32 ∧ t.operands.slen = 0#32 ∧ t.operands.sin.toList = [0#8, 0#8, 0#8, 0#8, 0#8] ∧
        t.results.errCode = 0#3 ∧ t.results.rvalid = false ∧ t.results.dout = 0#32 ∧ t.results.soutLen = 0#3 ∧
        t.results.sout.toList = [0#8, 0#8, 0#8, 0#8, 0#8] ∧ t.results.errVal = 0#32 ∧ t.results.errLim = 0#32 ∧
        t.results.errPos = 0#3 ∧ memRead t .status = 0#32 ∧ t.pending = rest ∧ t.reads = s.reads ∧
        t.faults = s.faults ∧ t.params = s.params ∧ t.draws = s.draws ∧
        (∀ j, memRead t (.alphabet j) = memRead s (.alphabet j)) ∧ memRead t .separator = memRead s .separator ∧
        (s.pending = .resetAssert :: rest → t.resetPhase = .asserted) ∧
        (s.pending = .resetRelease :: rest → t.resetPhase = .released))

/-- R43, R200, R38, R115: the machine right after reset: every register by its value in the spec. -/
def Obligations.ResetStateIsZero : Prop :=
  ResetApplied State.reset ∧
  (∀ r : Reg, memRead State.reset r =
    match r with
    | .separator => 0x2A#32
    | .alphabet j =>
      [0x33323130#32, 0x37363534#32, 0x42413938#32, 0x46454443#32, 0x4A494847#32, 0x4E4D4C4B#32, 0x5251504F#32,
       0x56555453#32, 0x5A595857#32, 0x64636261#32, 0x68676665#32, 0x6C6B6A69#32, 0x706F6E6D#32, 0x74737271#32,
       0x78777675#32, 0x5F2D7A79#32].getD j.val 0#32
    | _ => 0#32) ∧
  State.reset.pending = [] ∧ State.reset.faults = []

/-- R201: an access while reset is asserted has no step, whatever the access. -/
def Obligations.AccessDuringResetHasNoStep : Prop :=
  ∀ (s : State) (a : Access) (rest : List Event), s.pending = .access a :: rest → s.resetPhase = .asserted →
    step s = .fault .accessDuringReset

/-- R203: the first commands after reset, from every state in which reset has been applied. -/
def Obligations.FirstCommandAfterReset : Prop :=
  ∀ s : State, ResetApplied s →
    exec .encode1 s = .next (success s 0#32 1#3 { c0 := 0x30#8, c1 := 0#8, c2 := 0#8, c3 := 0#8, c4 := 0#8 }) ∧
    exec .decode1 s = .next (failure s 2#3 0#32 1#32 0#3) ∧
    exec .indexOf s = .next (failure s 3#3 0#32 1#32 0#3)

/-- R45, R191: power-up leaves reset unapplied and every storage register a draw of its own: a free value, not 0. That
the draws are taken in this order and that nothing the storage held before remains in them is the model's choice (log
entry 9), and so is that the 3-bit registers are drawn in their ranges (log entry 21). What has been read, what is
pending and the parameters stay. -/
def Obligations.PowerUpForgetsTheStorage : Prop :=
  ∀ (s s' : State) (rest : List Event), s.pending = .powerUp :: rest → s'.pending = .powerUp :: rest →
    s.resetPhase ≠ .asserted → s'.resetPhase ≠ .asserted → s.draws = s'.draws →
    ∃ t t', step s = .next t ∧ step s' = .next t' ∧ t.operands = t'.operands ∧ t.results = t'.results ∧
      t.resetPhase = .unreset ∧ t.pending = rest ∧ t.reads = s.reads ∧ t.faults = s.faults ∧ t.params = s.params ∧
      t.operands = drawnOperands s.draws ∧ t.results = drawnResults (s.draws + 7) ∧ t.draws = s.draws + 19 ∧
      t.operands.din = Config.draw s.draws ∧ t.operands.slen = Config.draw (s.draws + 1) ∧
      t.results.dout = Config.draw (s.draws + 9) ∧ t.results.errVal = Config.draw (s.draws + 16) ∧
      t.results.errLim = Config.draw (s.draws + 17)

/-- R200: no step can tell one RESET_KIND from another. -/
def Obligations.ResetKindIsNotObservable : Prop :=
  ∀ (s : State) (k : ResetKind),
    step (withResetKind k s) =
      match step s with
      | .next t => .next (withResetKind k t)
      | .fault f => .fault f
      | .refused r => .refused r

/-! ### The host's side -/

/-- R139, R158, R103: the width selector of the assembler and of the host library: widths 1
to 5 select ENCODEw or DECODEw, 0, 6 and 7 are assembled and the block rejects them with BAD_WIDTH, and 8 or more is
refused. That the library reports the width first, whatever the number or string, is the model's (log entry 20). -/
def Obligations.WidthSelectorIsStrict : Prop :=
  ∀ (p : Params) (s : State) (w : Nat),
    (8 ≤ w → expand (.encodeFor w) = .error (.widthTooLarge w) ∧ expand (.decodeFor w) = .error (.widthTooLarge w) ∧
      (∀ n, libraryEncode p w n = .error .widthError) ∧ (∀ l, libraryDecode p w l = .error .widthError)) ∧
    (w < 8 →
      assemble p [.pseudo (.encodeFor w)] = .ok [writeAccess p .cmd (BitVec.ofNat 32 (1 + 16 * w))] ∧
      assemble p [.pseudo (.decodeFor w)] = .ok [writeAccess p .cmd (BitVec.ofNat 32 (2 + 16 * w))] ∧
      (∀ n : Width, w = n.digits →
        execute s (BitVec.ofNat 32 (1 + 16 * w)) = exec (encodeInstr n) s ∧
        execute s (BitVec.ofNat 32 (2 + 16 * w)) = exec (decodeInstr n) s) ∧
      (w = 0 ∨ w = 6 ∨ w = 7 →
        execute s (BitVec.ofNat 32 (1 + 16 * w)) = .next (failure s 4#3 (BitVec.ofNat 32 w) 5#32 0#3) ∧
        execute s (BitVec.ofNat 32 (2 + 16 * w)) = .next (failure s 4#3 (BitVec.ofNat 32 w) 5#32 0#3)))

/-- R208: an integer that DIN cannot hold, a width that WIDTH cannot hold, and a string that SLEN cannot count are
reported by the host with no access, and every other is written whole: the accesses in full, with DIN, SLEN, the width in
the CMD word, and each character in its byte. That the width is checked first is the model's (log entry 20), and so is
the read of ERRPOS in every call of decodeFor (log entry 24), and so is that an index of symbolAt that DIN cannot hold is
reported as a number to encode is (log entry 26). -/
def Obligations.HostReportsWhatRegistersCannotHold : Prop :=
  (∀ (p : Params) (w : Int) (n : HostNumber), w < 0 ∨ 8 ≤ w → libraryEncode p w n = .error .widthError) ∧
  (∀ (p : Params) (w : Int) (l : List Nat), w < 0 ∨ 8 ≤ w → libraryDecode p w l = .error .widthError) ∧
  (∀ (p : Params) (w : Int), 0 ≤ w → w < 8 →
    libraryEncode p w .notInteger = .error .outOfRange ∧
    (∀ z : Int, z < 0 ∨ 2 ^ 32 ≤ z → libraryEncode p w (.integer z) = .error .outOfRange) ∧
    (∀ z : Int, 0 ≤ z → z < 2 ^ 32 →
      ∃ v : Word, (v.toNat : Int) = z ∧
        libraryEncode p w (.integer z) =
          .ok [writeAccess p .din v, writeAccess p .cmd (BitVec.ofNat 32 (1 + 16 * w.toNat)), readAccess p .status,
            readAccess p .sout0, readAccess p .sout1]) ∧
    (∀ l : List Nat, 2 ^ 32 ≤ l.length → libraryDecode p w l = .error .invalidLength) ∧
    (∀ l : List Nat, l.length < 2 ^ 32 →
      ∃ v : Word, v.toNat = l.length ∧
        libraryDecode p w l =
          .ok [writeAccess p .sin0 (fourBytes (sinByte l 0) (sinByte l 1) (sinByte l 2) (sinByte l 3)),
            writeAccess p .sin1 (BitVec.ofNat 32 (sinByte l 4).toNat), writeAccess p .slen v,
            writeAccess p .cmd (BitVec.ofNat 32 (2 + 16 * w.toNat)), readAccess p .status, readAccess p .dout,
            readAccess p .errPos])) ∧
  (∀ p : Params,
    librarySymbol p .notInteger = .error .outOfRange ∧
    (∀ z : Int, z < 0 ∨ 2 ^ 32 ≤ z → librarySymbol p (.integer z) = .error .outOfRange) ∧
    (∀ z : Int, 0 ≤ z → z < 2 ^ 32 →
      ∃ v : Word, (v.toNat : Int) = z ∧
        librarySymbol p (.integer z) =
          .ok [writeAccess p .din v, writeAccess p .cmd 0x00000003#32, readAccess p .status, readAccess p .sout0])) ∧
  (∀ c : Nat, 0xFF < c → charByte c = 0#8 ∧ REV (charByte c) = none)

/-- R208: when the accesses of a library call run from a state in which reset is not asserted, with nothing between them,
decodeFor answers the integer the block left when every character is a symbol, InvalidLength when the length is wrong, and
otherwise the first character that is no symbol, as the caller gave it, also when its code is above 0xFF; indexOf
likewise. What the library answers from the values it read is the model's form (log entry 24). -/
def Obligations.LibraryReportsTheOriginalCharacter : Prop :=
  (∀ (s : State) (n : Width) (l : List Nat), s.resetPhase ≠ .asserted → l.length < 2 ^ 32 →
    ∃ as t status dout pos, libraryDecode s.params n.digits l = .ok as ∧
      Sys2Proof.core.run as.length (s.launch as) = .next t ∧ t.pending = s.pending ∧
      t.reads = s.reads ++ [status, dout, pos] ∧
      (l.length ≠ n.digits → decodeReport l [status, dout, pos] = .error .invalidLength) ∧
      (l.length = n.digits → (∀ c ∈ l, IsSymbol c) → decodeReport l [status, dout, pos] = .ok t.results.dout) ∧
      (l.length = n.digits → ∀ k c : Nat, l[k]? = some c → ¬ IsSymbol c → (∀ j d : Nat, j < k → l[j]? = some d → IsSymbol d) →
        decodeReport l [status, dout, pos] = .error (.unknownSymbol c))) ∧
  (∀ (s : State) (c : Nat), s.resetPhase ≠ .asserted →
    ∃ t status dout, Sys2Proof.core.run 4 (s.launch (libraryIndex s.params c)) = .next t ∧
      t.reads = s.reads ++ [status, dout] ∧
      (IsSymbol c → indexReport c [status, dout] = .ok t.results.dout) ∧
      (¬ IsSymbol c → indexReport c [status, dout] = .error (.unknownSymbol c)))

/-- R212, R205, R210: under the launch premises of a host's program, while no reset or power event arrives during it, its
run ends, after as many steps as it has accesses, in the storage and with the read values of the program run alone from
the state of R43, whatever other hosts do after it. -/
def Obligations.LaunchPremisesGiveTheProgramsOwnRun : Prop :=
  ∀ (h : Nat) (program : List Access) (s : State), LaunchPremises h program s →
    (∀ e ∈ s.pending.take (runLength h s.pending), ∃ a, e = .access a) →
    runLength h s.pending = program.length ∧
    ∃ t u, Sys2Proof.core.run program.length s = .next t ∧
      Sys2Proof.core.run program.length ({ State.reset with params := s.params }.launch program) = .next u ∧
      RunEnded ({ State.reset with params := s.params }.launch program) u ∧ t.faults = s.faults ∧
      t.operands = u.operands ∧ t.results = u.results ∧ t.reads = s.reads ++ u.reads

/-- R102: a line's immediate of 2^32 or more is refused, and any other reaches the register whole. -/
def Obligations.AssemblerNeverTruncates : Prop :=
  ∀ (p : Params) (r : Reg) (n : Nat),
    (2 ^ 32 ≤ n → assembleLine p (.wr r n) = .error (.immediateTooLarge n)) ∧
    (n < 2 ^ 32 → ∃ v : Word, assembleLine p (.wr r n) = .ok (writeAccess p r v) ∧ v.toNat = n)

end
end

