-- ==== Sys2Proof/Laws/Commands.lean ====
section
/-! SUPPORT. What the shared operations of the commands can do, said once: a command commits one set of results, which
its operands alone determine (R98, R101), and the decoder's loop (R150). -/

namespace Sys2Proof.Laws

open Sys2Proof.Machine

/-- The results a command commits, from the operand registers. -/
def commandResults : Instr → Operands → Results
  | .encode1 => encodeN .w1
  | .encode2 => encodeN .w2
  | .encode3 => encodeN .w3
  | .encode4 => encodeN .w4
  | .encode5 => encodeN .w5
  | .decode1 => decodeN .w1
  | .decode2 => decodeN .w2
  | .decode3 => decodeN .w3
  | .decode4 => decodeN .w4
  | .decode5 => decodeN .w5
  | .symbolAt => symbolAtCmd
  | .indexOf => indexOfCmd

/-- The results a word written to CMD commits. -/
def wordResults (v : Word) (o : Operands) : Results :=
  match decodeCmd v with
  | .ok i => commandResults i o
  | .error e => raiseError (decodeErrorOf e)

/-- Every command answers a next state and commits its results. -/
theorem exec_eq_commit (i : Instr) (s : State) : exec i s = .next (s.commit (commandResults i s.operands)) := by
  cases i <;> rfl

/-- Every word written to CMD answers a next state and commits its results. -/
theorem execute_eq_commit (s : State) (v : Word) : execute s v = .next (s.commit (wordResults v s.operands)) := by
  unfold execute wordResults
  cases decodeCmd v with
  | ok i => exact exec_eq_commit i s
  | error e => rfl

@[simp] theorem commandResults_encodeInstr (w : Width) (o : Operands) :
    commandResults (encodeInstr w) o = encodeN w o := by
  cases w <;> rfl

@[simp] theorem commandResults_decodeInstr (w : Width) (o : Operands) :
    commandResults (decodeInstr w) o = decodeN w o := by
  cases w <;> rfl

/-- The decoder's loop ends in an error exactly at the first character without an index: `l = before ++ c :: after`,
every character of `before` has an index, and `c` has none. -/
theorem decodeChars_error {lim : Word} {l : List Byte} {pos : Nat} {acc : Word} {e : CmdError}
    (h : decodeChars lim pos acc l = .error e) :
    ∃ before c after, l = before ++ c :: after ∧ (∀ b ∈ before, REV b ≠ none) ∧ REV c = none ∧
      e = { kind := .unknownSymbol, val := c.setWidth 32, lim := lim, pos := BitVec.ofNat 3 (pos + before.length) } := by
  induction l generalizing pos acc with
  | nil => simp [decodeChars] at h
  | cons c rest ih =>
    cases hc : REV c with
    | none =>
      simp only [decodeChars, hc, Except.error.injEq] at h
      exact ⟨[], c, rest, rfl, by simp, hc, h.symm⟩
    | some r =>
      simp only [decodeChars, hc] at h
      obtain ⟨before, d, after, rfl, hb, hd, he⟩ := ih h
      refine ⟨c :: before, d, after, rfl, ?_, hd, ?_⟩
      · rintro b (_ | ⟨_, hb'⟩)
        · simp [hc]
        · exact hb b hb'
      · rw [he, List.length_cons, Nat.add_assoc, Nat.add_comm 1]

/-- The decoder's loop succeeds when every character has an index. -/
theorem decodeChars_ok {lim : Word} {l : List Byte} (h : ∀ b ∈ l, REV b ≠ none) (pos : Nat) (acc : Word) :
    ∃ v, decodeChars lim pos acc l = .ok v := by
  cases hd : decodeChars lim pos acc l with
  | ok v => exact ⟨v, rfl⟩
  | error e =>
    obtain ⟨before, c, after, rfl, -, hc, -⟩ := decodeChars_error hd
    exact absurd hc (h c (by simp))

/-- When the loop succeeds, every character had an index. -/
theorem decodeChars_ok_mem {lim : Word} {l : List Byte} {pos : Nat} {acc v : Word}
    (h : decodeChars lim pos acc l = .ok v) : ∀ b ∈ l, REV b ≠ none := by
  induction l generalizing pos acc with
  | nil => simp
  | cons c rest ih =>
    cases hc : REV c with
    | none => simp [decodeChars, hc] at h
    | some r =>
      simp only [decodeChars, hc] at h
      rintro b (_ | ⟨_, hb⟩)
      · simp [hc]
      · exact ih h b hb

/-- Isolating a group is taking a slice of six bits (R130: `bits[off+w-1 : off]`). -/
theorem isolate_eq_slice (n : Word) (off : GroupOffset) : isolate n off = n.extractLsb' off.bits 6 := by
  apply BitVec.eq_of_getLsbD_eq
  intro i hi
  have hm : ((1#32 <<< 6) - 1#32).getLsbD i = true := by
    interval_cases i <;> decide
  have h32 : i < 32 := by omega
  simp only [isolate, BitVec.getLsbD_setWidth, BitVec.getLsbD_and, BitVec.getLsbD_ushiftRight,
    BitVec.getLsbD_extractLsb', hi, hm]
  simp

end Sys2Proof.Laws
end

