-- ==== Sys2Proof/Laws/State.lean ====
section
/-! SUPPORT. One lemma per field for each update of the state, so that no proof unfolds a record update. -/

namespace Sys2Proof.Machine

variable (s : State) (r : Results) (phase : ResetPhase) (nbits w : Nat) (as : List Access) (a : Access)
  (c : BusErrorCause)

@[simp] theorem commit_operands : (s.commit r).operands = s.operands := rfl
@[simp] theorem commit_results : (s.commit r).results = r := rfl
@[simp] theorem commit_resetPhase : (s.commit r).resetPhase = s.resetPhase := rfl
@[simp] theorem commit_pending : (s.commit r).pending = s.pending := rfl
@[simp] theorem commit_reads : (s.commit r).reads = s.reads := rfl
@[simp] theorem commit_faults : (s.commit r).faults = s.faults := rfl
@[simp] theorem commit_params : (s.commit r).params = s.params := rfl
@[simp] theorem commit_draws : (s.commit r).draws = s.draws := rfl
/-- Only the last commit remains (R207). -/
@[simp] theorem commit_commit (r' : Results) : (s.commit r).commit r' = s.commit r' := rfl

@[simp] theorem applyReset_operands : (s.applyReset phase).operands = Operands.reset := rfl
@[simp] theorem applyReset_results : (s.applyReset phase).results = Results.reset := rfl
@[simp] theorem applyReset_resetPhase : (s.applyReset phase).resetPhase = phase := rfl
@[simp] theorem applyReset_pending : (s.applyReset phase).pending = s.pending := rfl
@[simp] theorem applyReset_reads : (s.applyReset phase).reads = s.reads := rfl
@[simp] theorem applyReset_faults : (s.applyReset phase).faults = s.faults := rfl
@[simp] theorem applyReset_params : (s.applyReset phase).params = s.params := rfl
@[simp] theorem applyReset_draws : (s.applyReset phase).draws = s.draws := rfl

@[simp] theorem powerUp_pending : s.powerUp.pending = s.pending := by
  unfold State.powerUp
  split <;> rfl
@[simp] theorem powerUp_reads : s.powerUp.reads = s.reads := by
  unfold State.powerUp
  split <;> rfl
@[simp] theorem powerUp_faults : s.powerUp.faults = s.faults := by
  unfold State.powerUp
  split <;> rfl
@[simp] theorem powerUp_params : s.powerUp.params = s.params := by
  unfold State.powerUp
  split <;> rfl
/-- While reset is asserted a power-up leaves the state as it is (R200). -/
theorem powerUp_of_asserted (h : s.resetPhase = .asserted) : s.powerUp = s := by
  simp only [State.powerUp, h]
/-- Otherwise every storage register is drawn afresh (R45). -/
theorem powerUp_of_not_asserted (h : s.resetPhase ≠ .asserted) :
    s.powerUp = { s with operands := drawnOperands s.draws, results := drawnResults (s.draws + 7),
                         resetPhase := .unreset, draws := s.draws + drawsPerPowerUp } := by
  cases hp : s.resetPhase <;> simp_all [State.powerUp]

@[simp] theorem issuedBy_access (h : Nat) : (Event.access a).issuedBy h = (a.host == h) := rfl
@[simp] theorem issuedBy_resetAssert (h : Nat) : Event.resetAssert.issuedBy h = false := rfl
@[simp] theorem issuedBy_resetRelease (h : Nat) : Event.resetRelease.issuedBy h = false := rfl
@[simp] theorem issuedBy_powerUp (h : Nat) : Event.powerUp.issuedBy h = false := rfl

@[simp] theorem busError_operands : (s.busError a c).operands = s.operands := rfl
@[simp] theorem busError_results : (s.busError a c).results = s.results := rfl
@[simp] theorem busError_resetPhase : (s.busError a c).resetPhase = s.resetPhase := rfl
@[simp] theorem busError_pending :
    (s.busError a c).pending = s.pending.filter fun e => !e.issuedBy a.host := rfl
@[simp] theorem busError_reads : (s.busError a c).reads = s.reads := rfl
@[simp] theorem busError_faults : (s.busError a c).faults = s.faults ++
    [{ host := a.host, cause := c, data := refusedData a.kind, reaction := s.params.hostBusError }] := rfl
@[simp] theorem busError_params : (s.busError a c).params = s.params := rfl
@[simp] theorem busError_draws : (s.busError a c).draws = s.draws := rfl

@[simp] theorem withFetchWord_operands : (s.withFetchWord nbits w).operands = s.operands := rfl
@[simp] theorem withFetchWord_results : (s.withFetchWord nbits w).results = s.results := rfl
@[simp] theorem withFetchWord_resetPhase : (s.withFetchWord nbits w).resetPhase = s.resetPhase.ready := rfl
@[simp] theorem withFetchWord_pending : (s.withFetchWord nbits w).pending =
    .access (writeAccess s.params .cmd (tableWord nbits w)) :: s.pending := rfl
@[simp] theorem withFetchWord_reads : (s.withFetchWord nbits w).reads = s.reads := rfl
@[simp] theorem withFetchWord_faults : (s.withFetchWord nbits w).faults = s.faults := rfl
@[simp] theorem withFetchWord_params : (s.withFetchWord nbits w).params = s.params := rfl
@[simp] theorem withFetchWord_draws : (s.withFetchWord nbits w).draws = s.draws := rfl

@[simp] theorem launch_operands : (s.launch as).operands = s.operands := rfl
@[simp] theorem launch_results : (s.launch as).results = s.results := rfl
@[simp] theorem launch_resetPhase : (s.launch as).resetPhase = s.resetPhase := rfl
@[simp] theorem launch_pending : (s.launch as).pending = as.map Event.access ++ s.pending := rfl
@[simp] theorem launch_reads : (s.launch as).reads = s.reads := rfl
@[simp] theorem launch_faults : (s.launch as).faults = s.faults := rfl
@[simp] theorem launch_params : (s.launch as).params = s.params := rfl
@[simp] theorem launch_draws : (s.launch as).draws = s.draws := rfl

end Sys2Proof.Machine
end

