-- ==== Sys2Proof/Laws/Window.lean ====
section
/-! SUPPORT. What an access and a step can do, said once each: if they answer a next state, it is one of these. -/

namespace Sys2Proof.Laws

open Sys2Proof.Machine

/-- A write that is not refused runs a command or stores an operand; the results change only by a command. -/
theorem memWrite_next {s t : State} {v : Word} {r : Reg} (h : memWrite s v r = .ok (.next t)) :
    (r = .cmd ∧ t = s.commit (wordResults v s.operands)) ∨
    (r = .din ∧ t = { s with operands := { s.operands with din := v } }) ∨
    (r = .slen ∧ t = { s with operands := { s.operands with slen := v } }) ∨
    (r = .sin0 ∧ t = { s with operands := { s.operands with sin := s.operands.sin.setWord0 v } }) ∨
    (r = .sin1 ∧ t = { s with operands := { s.operands with sin := s.operands.sin.setWord1 v } }) := by
  cases r with
  | cmd =>
    rw [memWrite, execute_eq_commit] at h
    exact .inl ⟨rfl, by simpa using h.symm⟩
  | din | slen | sin0 | sin1 => simpa [memWrite, eq_comm] using h
  | status | dout | soutLen | sout0 | sout1 | errVal | errLim | errPos | separator | alphabet j =>
    simp [memWrite] at h

/-- A write that the block does not refuse answers a next state. -/
theorem memWrite_ok {s : State} {v : Word} {r : Reg} {out : Host.Outcome State Fault Refusal}
    (h : memWrite s v r = .ok out) : ∃ t, out = .next t := by
  cases r with
  | cmd =>
    rw [memWrite, execute_eq_commit] at h
    exact ⟨_, (Except.ok.inj h).symm⟩
  | din | slen | sin0 | sin1 => exact ⟨_, (Except.ok.inj h).symm⟩
  | status | dout | soutLen | sout0 | sout1 | errVal | errLim | errPos | separator | alphabet j => simp [memWrite] at h

/-- What the block serves is a read of a register, which only lengthens the reads, or a write of one. -/
theorem respond_next {s t : State} {a : Access} {o : Nat} (h : respond s a o = .ok (.next t)) :
    ∃ r : Reg, admitAccess a o = .ok r ∧
      ((a.kind = .read ∧ t = { s with reads := s.reads ++ [memRead s r] }) ∨
        ∃ v, a.kind = .write v ∧ memWrite s v r = .ok (.next t)) := by
  unfold respond at h
  split at h
  · simp at h
  · rename_i r hr
    refine ⟨r, hr, ?_⟩
    split at h
    · rename_i hk
      exact .inl ⟨hk, by simpa using h.symm⟩
    · rename_i v hk
      exact .inr ⟨v, hk, h⟩

/-- The block answers an access with a bus error or with a next state. -/
theorem respond_cases (s : State) (a : Access) (o : Nat) :
    (∃ c, respond s a o = .error c) ∨ ∃ t, respond s a o = .ok (.next t) := by
  cases h : respond s a o with
  | error c => exact .inl ⟨c, rfl⟩
  | ok out =>
    right
    unfold respond at h
    split at h
    · simp at h
    · split at h
      · exact ⟨_, by rw [← Except.ok.inj h]⟩
      · obtain ⟨t, rfl⟩ := memWrite_ok h
        exact ⟨t, rfl⟩

/-- An access of the window is served, or its bus error ends the program that issued it. -/
theorem hostAccess_next {s t : State} {a : Access} (h : hostAccess s a = .next t) :
    ∃ o, windowOffset s.params a.addr = some o ∧
      ((respond s a o = .ok (.next t)) ∨ ∃ c, respond s a o = .error c ∧ t = s.busError a c) := by
  unfold hostAccess at h
  split at h
  · simp at h
  · rename_i o ho
    refine ⟨o, ho, ?_⟩
    rcases respond_cases s a o with ⟨c, hc⟩ | ⟨u, hu⟩
    · rw [hc] at h
      exact .inr ⟨c, hc, by simpa using h.symm⟩
    · rw [hu] at h
      exact .inl (by rw [hu, show u = t by simpa using h])

/-- What a served access leaves alone: all but the storage and the values read (R69, R70). -/
theorem respond_frame {s t : State} {a : Access} {o : Nat} (h : respond s a o = .ok (.next t)) :
    t.pending = s.pending ∧ t.faults = s.faults ∧ t.resetPhase = s.resetPhase ∧ t.params = s.params ∧
      t.draws = s.draws := by
  obtain ⟨r, -, ⟨-, rfl⟩ | ⟨v, -, hm⟩⟩ := respond_next h
  · exact ⟨rfl, rfl, rfl, rfl, rfl⟩
  · rcases memWrite_next hm with ⟨-, rfl⟩ | ⟨-, rfl⟩ | ⟨-, rfl⟩ | ⟨-, rfl⟩ | ⟨-, rfl⟩ <;>
      exact ⟨rfl, rfl, rfl, rfl, rfl⟩

/-- The programs that an access ends faulted join those before them. -/
theorem hostAccess_faults {s t : State} {a : Access} (h : hostAccess s a = .next t) : s.faults <+: t.faults := by
  obtain ⟨o, -, hr | ⟨c, -, rfl⟩⟩ := hostAccess_next h
  · rw [(respond_frame hr).2.1]
  · exact List.prefix_append _ _

/-- What an arriving event can lead to. -/
theorem arrive_next {s t : State} {e : Event} (h : arrive s e = .next t) :
    (∃ a, e = .access a ∧ s.resetPhase ≠ .asserted ∧ hostAccess s a = .next t) ∨
    (e = .resetAssert ∧ t = s.applyReset .asserted) ∨
    (e = .resetRelease ∧ s.resetPhase = .asserted ∧ t = s.applyReset .released) ∨
    (e = .resetRelease ∧ s.resetPhase ≠ .asserted ∧ t = s) ∨
    (e = .powerUp ∧ t = s.powerUp) := by
  cases e with
  | access a =>
    left
    cases hp : s.resetPhase <;> simp [arrive, hp] at h ⊢ <;> exact h
  | resetAssert => simpa [arrive, eq_comm] using h
  | resetRelease =>
    cases hp : s.resetPhase <;> simpa [arrive, hp, eq_comm] using h
  | powerUp => simpa [arrive, eq_comm] using h

/-- A step is idle, or the oldest event arrives. -/
theorem step_next {s t : State} (h : step s = .next t) :
    (s.pending = [] ∧ t = s) ∨
    ∃ e rest, s.pending = e :: rest ∧ arrive { s with pending := rest } e = .next t := by
  unfold step at h
  split at h
  · rename_i hp
    exact .inl ⟨hp, by simpa using h.symm⟩
  · rename_i e rest hp
    exact .inr ⟨e, rest, hp, h⟩

/-- No step forgets a faulted program (R178). -/
theorem step_faults {s t : State} (h : step s = .next t) : s.faults <+: t.faults := by
  rcases step_next h with ⟨-, rfl⟩ | ⟨e, rest, -, h⟩
  · exact List.prefix_rfl
  · rcases arrive_next h with ⟨a, -, -, h⟩ | ⟨-, rfl⟩ | ⟨-, -, rfl⟩ | ⟨-, -, rfl⟩ | ⟨-, rfl⟩
    · have hf := hostAccess_faults h
      exact hf
    · exact List.prefix_rfl
    · exact List.prefix_rfl
    · exact List.prefix_rfl
    · rw [powerUp_faults]

/-- The step of a state whose oldest event is known. -/
theorem step_cons {s : State} {e : Event} {rest : List Event} (h : s.pending = e :: rest) :
    step s = arrive { s with pending := rest } e := by
  simp only [step, h]

/-- An access that arrives while reset is not asserted is performed. -/
theorem arrive_access {s : State} (h : s.resetPhase ≠ .asserted) (a : Access) :
    arrive s (.access a) = hostAccess s a := by
  cases hp : s.resetPhase <;> simp_all [arrive]

/-- The offset of an address of the window (R60). -/
theorem windowOffset_add (p : Params) {o : Nat} (h : o < 256) : windowOffset p (p.base + o) = some o := by
  simp [windowOffset, h]

/-- Every offset of the map is inside the window. -/
theorem offset_lt (r : Reg) : r.offset < 256 := by
  cases r with
  | alphabet j => simp only [Reg.offset]; omega
  | _ => decide

end Sys2Proof.Laws
end

