-- ==== Sys2Proof/Laws/Step.lean ====
section
/-! SUPPORT. Runs of several steps (R210), and the ranges that every draw keeps (R20, R26). -/

namespace Sys2Proof.Laws

open Sys2Proof.Machine Sys2Proof.Safety

/-- A run of one step more, for any machine of the host's interface; at `Sys2Proof.core` its step is
`Sys2Proof.Machine.step`. -/
theorem run_succ (M : Host.Core) (k : Nat) {s t : M.State} (h : M.step s = .next t) :
    M.run (k + 1) s = M.run k t := by
  rw [Host.Core.run, h]

/-- With nothing pending, a run stays where it is (R191, R210). -/
theorem run_idle {s : State} (h : s.pending = []) (k : Nat) : Sys2Proof.core.run k s = .next s := by
  induction k with
  | zero => rfl
  | succ k ih =>
    have hs : step s = .next s := by simp only [step, h]
    exact (run_succ Sys2Proof.core k (s := s) (t := s) hs).trans ih

/-- A draw for a register of the values 0 to `max` is one of them. -/
theorem drawUpTo_le {max : Nat} (h : max < 8) (n : Nat) : (drawUpTo max n).toNat ≤ max := by
  have := Nat.mod_lt (Config.draw n).toNat (show 0 < max + 1 by omega)
  simp only [drawUpTo, BitVec.toNat_ofNat]
  omega

/-- Result registers drawn at power-up are in their ranges. -/
theorem drawnResults_inRange (n : Nat) : InRange (drawnResults n) :=
  ⟨drawUpTo_le (by decide) n, drawUpTo_le (by decide) (n + 3), drawUpTo_le (by decide) (n + 11)⟩

/-- Legal results are in their ranges. -/
theorem legalResults_inRange {r : Results} (h : LegalResults r) : InRange r := by
  rcases h with rfl | ⟨-, h, -, -, hp, hl, -⟩ | ⟨-, -, h, -, hl, -, hp, -⟩
  · exact ⟨by decide, by decide, by decide⟩
  · exact ⟨by rw [h]; decide, hl, by rw [hp]; decide⟩
  · exact ⟨h, by rw [hl]; decide, hp⟩

end Sys2Proof.Laws
end

