-- ==== Sys2Proof/Laws/Launch.lean ====
section
/-! SUPPORT. The accesses of a host program: what one admitted access does (R69, R70), and the launch premises over a
queue (R212). -/

namespace Sys2Proof.Laws

open Sys2Proof.Machine Sys2Proof.Safety

/-- An admitted access of a register passes the checks, whoever issues it. -/
theorem admitAccess_full (k : AccessKind) (p : Params) (r : Reg) (h : Nat) :
    admitAccess { kind := k, addr := p.base + r.offset, size := 4, byteEnables := 0xF#4, host := h } r.offset = .ok r := by
  cases r with
  | alphabet j =>
    have hall : ∀ j : Fin 16, (Reg.alphabet j).offset % 4 = 0 ∧ regAt (Reg.alphabet j).offset = some (.alphabet j) := by
      decide
    simp [admitAccess, hall j]
  | _ => rfl

/-- The admitted read of a register appends its value to the reads. -/
theorem hostAccess_read (s : State) (r : Reg) (h : Nat) :
    hostAccess s { readAccess s.params r with host := h } = .next { s with reads := s.reads ++ [memRead s r] } := by
  have ha := admitAccess_full .read s.params r h
  simp only [hostAccess, respond, readAccess, windowOffset_add s.params (offset_lt r), ha]

/-- The admitted write of a register is MemWrite, or ends the program where the register is read-only. -/
theorem hostAccess_write (s : State) (r : Reg) (v : Word) (h : Nat) :
    hostAccess s { writeAccess s.params r v with host := h } =
      match memWrite s v r with
      | .error c => .next (s.busError { writeAccess s.params r v with host := h } c)
      | .ok out => out := by
  have ha := admitAccess_full (.write v) s.params r h
  have hr : respond s { writeAccess s.params r v with host := h } r.offset = memWrite s v r := by
    simp only [respond, writeAccess, ha]
  have ho : windowOffset s.params (writeAccess s.params r v).addr = some r.offset :=
    windowOffset_add s.params (offset_lt r)
  cases hm : memWrite s v r <;> simp [hostAccess, ho, hr, hm]

/-- An access of the window: the block's answer, or its bus error ends the program that issued it. -/
theorem hostAccess_window {s : State} {a : Access} (hb : s.params.base ≤ a.addr) (he : a.addr < s.params.base + 256) :
    hostAccess s a =
      match respond s a (a.addr - s.params.base) with
      | .error c => .next (s.busError a c)
      | .ok out => out := by
  have ho : windowOffset s.params a.addr = some (a.addr - s.params.base) := by
    simp only [windowOffset, hb, he, and_self, if_true]
  cases hr : respond s a (a.addr - s.params.base) <;> simp [hostAccess, ho, hr]

/-- A step that performs an access. -/
theorem step_access {s : State} {a : Access} {rest : List Event} (hq : s.pending = .access a :: rest)
    (hp : s.resetPhase ≠ .asserted) : step s = hostAccess { s with pending := rest } a :=
  (step_cons hq).trans (arrive_access (s := { s with pending := rest }) hp a)

@[simp] theorem accessesOf_append (h : Nat) (l l' : List Event) :
    accessesOf h (l ++ l') = accessesOf h l ++ accessesOf h l' := by
  induction l with
  | nil => rfl
  | cons e rest ih =>
    cases e with
    | access a => by_cases ha : a.host = h <;> simp [accessesOf, ha, ih]
    | _ => simp [accessesOf, ih]

/-- The accesses of one host's program are all of it. -/
theorem accessesOf_program {h : Nat} {program : List Access} (hh : ∀ a ∈ program, a.host = h) :
    accessesOf h (program.map Event.access) = program := by
  induction program with
  | nil => rfl
  | cons a rest ih =>
    simp [accessesOf, hh a (by simp), ih fun b hb => hh b (by simp [hb])]

/-- A host with no access left has no steps left. -/
theorem runLength_eq_zero {h : Nat} {l : List Event} (hl : accessesOf h l = []) : runLength h l = 0 := by
  cases l <;> simp [runLength, hl]

/-- Until the run of a host has ended, it has an access left. -/
theorem accessesOf_drop_ne_nil {h k : Nat} {l : List Event} (hk : k < runLength h l) : accessesOf h (l.drop k) ≠ [] := by
  induction l generalizing k with
  | nil => simp [runLength] at hk
  | cons e rest ih =>
    unfold runLength at hk
    split at hk
    · omega
    · rename_i hne
      cases k with
      | zero => exact hne
      | succ k => exact ih (by omega)

/-- A host that has an access left: the queue up to that access, and after it. -/
theorem exists_access_of_accessesOf {h : Nat} {l : List Event} (hl : accessesOf h l ≠ []) :
    ∃ before b after, l = before ++ .access b :: after ∧ b.host = h := by
  induction l with
  | nil => exact absurd rfl hl
  | cons e rest ih =>
    have later : accessesOf h rest ≠ [] → ∃ before b after, e :: rest = before ++ .access b :: after ∧ b.host = h := by
      intro hr
      obtain ⟨before, b, after, rfl, hb⟩ := ih hr
      exact ⟨e :: before, b, after, rfl, hb⟩
    cases e with
    | access a =>
      by_cases ha : a.host = h
      · exact ⟨[], a, rest, rfl, ha⟩
      · exact later (by simpa [accessesOf, ha] using hl)
    | _ => exact later hl

/-- A program of one host launched where nothing is pending has the window for itself: EXCLUSIVE_HOST holds. -/
theorem launch_exclusiveHost {s : State} {h : Nat} {program : List Access} (hs : s.pending = [])
    (hh : ∀ a ∈ program, a.host = h) : ExclusiveHost h (s.launch program) := by
  intro before between after a b hq _ _ c hc
  rw [launch_pending, hs, List.append_nil] at hq
  have hmem : Event.access c ∈ program.map Event.access := by rw [hq]; simp [hc]
  obtain ⟨d, hd, hdc⟩ := List.mem_map.1 hmem
  cases hdc
  exact hh c hd

end Sys2Proof.Laws
end

