-- ==== Sys2Proof/Laws/PerInstr.lean ====
section
/-! SUPPORT. Statements made per command: the word of each command passes the field checks of R91 to R93. -/

namespace Sys2Proof.Laws.LegalWord

/-- The fields of the command's word are well formed, and its reserved bits are 0 (R91, R97). -/
def Statement (i : Instr) : Prop :=
  (fieldsOf (encode i)).wellFormed = true ∧ (encode i).toNat < 128

theorem encode1 : Statement .encode1 := by unfold Statement; decide
theorem encode2 : Statement .encode2 := by unfold Statement; decide
theorem encode3 : Statement .encode3 := by unfold Statement; decide
theorem encode4 : Statement .encode4 := by unfold Statement; decide
theorem encode5 : Statement .encode5 := by unfold Statement; decide
theorem decode1 : Statement .decode1 := by unfold Statement; decide
theorem decode2 : Statement .decode2 := by unfold Statement; decide
theorem decode3 : Statement .decode3 := by unfold Statement; decide
theorem decode4 : Statement .decode4 := by unfold Statement; decide
theorem decode5 : Statement .decode5 := by unfold Statement; decide
theorem symbolAt : Statement .symbolAt := by unfold Statement; decide
theorem indexOf : Statement .indexOf := by unfold Statement; decide

end Sys2Proof.Laws.LegalWord
end

