-- ==== Sys2Proof/Tests/Slice0.lean ====
section
/-! SUPPORT. Tests on single steps, with results from the vectors of spec/95_test_vectors.md, and for every obligation
that has hypotheses a witness that meets them, at the boundary of each clause. -/

namespace Sys2Proof.Tests

open Sys2Proof.Machine Sys2Proof.Safety Sys2Proof.Claims

/-- The reset state with these four operand registers (spec/95, Conventions). -/
def given (din slen sin0 sin1 : Word) : State :=
  { State.reset with
    operands := { din := din, slen := slen, sin := (Chars.zero.setWord0 sin0).setWord1 sin1 } }

/-- The reset state with one event about to arrive. -/
def coming (e : Event) : State := { State.reset with pending := [e] }

/-- The state of spec/95 section 2.8 (DIN = 5, then ENCODE1) with one access about to arrive. -/
def afterFive (a : Access) : State :=
  { given 5#32 0#32 0#32 0#32 with
    results := { Results.reset with rvalid := true, soutLen := 1#3, sout := { Chars.zero with c0 := 0x35#8 } },
    pending := [.access a] }

/-- The columns of spec/95: STATUS, DOUT, SOUTLEN, SOUT0, SOUT1, ERRVAL, ERRLIM, ERRPOS. -/
def columns (o : Host.Outcome State Fault Refusal) : Option (List Word) :=
  match o with
  | .next t =>
    some ([Reg.status, .dout, .soutLen, .sout0, .sout1, .errVal, .errLim, .errPos].map fun r => memRead t r)
  | .fault _ => none
  | .refused _ => none

/-- The fault of an outcome. -/
def faultOf (o : Host.Outcome State Fault Refusal) : Option Fault :=
  match o with
  | .next _ => none
  | .fault f => some f
  | .refused _ => none

/-- The bus errors that programs ended in: the host, the cause and the data returned. -/
def busErrorsOf (o : Host.Outcome State Fault Refusal) : Option (List (Nat × BusErrorCause × Option Word)) :=
  match o with
  | .next t => some (t.faults.map fun f => (f.host, f.cause, f.data))
  | .fault _ => none
  | .refused _ => none

/-- The state of an outcome. -/
def nextOf (o : Host.Outcome State Fault Refusal) : Option State :=
  match o with
  | .next t => some t
  | .fault _ => none
  | .refused _ => none

/-! ### The commands (spec/95 sections 2.2 to 2.5) -/

theorem test_symbolAt_63 : columns (exec .symbolAt (given 0x3F#32 0x0#32 0x0#32 0x0#32)) =
    some [0x100#32, 0x0#32, 0x1#32, 0x5F#32, 0x0#32, 0x0#32, 0x0#32, 0x0#32] := by decide
theorem test_symbolAt_all_ones : columns (exec .symbolAt (given 0xFFFFFFFF#32 0x0#32 0x0#32 0x0#32)) =
    some [0x1#32, 0x0#32, 0x0#32, 0x0#32, 0x0#32, 0xFFFFFFFF#32, 0x3F#32, 0x0#32] := by decide
theorem test_indexOf_ignores_lanes_1_to_3 : columns (exec .indexOf (given 0x0#32 0x0#32 0x2A2A2A41#32 0x0#32)) =
    some [0x100#32, 0xA#32, 0x0#32, 0x0#32, 0x0#32, 0x0#32, 0x0#32, 0x0#32] := by decide
theorem test_indexOf_after_Z : columns (exec .indexOf (given 0x0#32 0x0#32 0x5B#32 0x0#32)) =
    some [0x3#32, 0x0#32, 0x0#32, 0x0#32, 0x0#32, 0x5B#32, 0x1#32, 0x0#32] := by decide
theorem test_encode1_F : columns (exec .encode1 (given 0xF#32 0x0#32 0x0#32 0x0#32)) =
    some [0x100#32, 0x0#32, 0x1#32, 0x46#32, 0x0#32, 0x0#32, 0x0#32, 0x0#32] := by decide
theorem test_encode1_64 : columns (exec .encode1 (given 0x40#32 0x0#32 0x0#32 0x0#32)) =
    some [0x1#32, 0x0#32, 0x0#32, 0x0#32, 0x0#32, 0x40#32, 0x3F#32, 0x0#32] := by decide
theorem test_encode2_Ve : columns (exec .encode2 (given 0x7E8#32 0x0#32 0x0#32 0x0#32)) =
    some [0x100#32, 0x0#32, 0x2#32, 0x6556#32, 0x0#32, 0x0#32, 0x0#32, 0x0#32] := by decide
theorem test_encode2_4096 : columns (exec .encode2 (given 0x1000#32 0x0#32 0x0#32 0x0#32)) =
    some [0x1#32, 0x0#32, 0x0#32, 0x0#32, 0x0#32, 0x1000#32, 0xFFF#32, 0x0#32] := by decide
theorem test_encode3_U90 : columns (exec .encode3 (given 0x1E240#32 0x0#32 0x0#32 0x0#32)) =
    some [0x100#32, 0x0#32, 0x3#32, 0x303955#32, 0x0#32, 0x0#32, 0x0#32, 0x0#32] := by decide
theorem test_encode4_gytl : columns (exec .encode4 (given 0xABCDEF#32 0x0#32 0x0#32 0x0#32)) =
    some [0x100#32, 0x0#32, 0x4#32, 0x6C747967#32, 0x0#32, 0x0#32, 0x0#32, 0x0#32] := by decide
theorem test_encode4_2_to_24 : columns (exec .encode4 (given 0x1000000#32 0x0#32 0x0#32 0x0#32)) =
    some [0x1#32, 0x0#32, 0x0#32, 0x0#32, 0x0#32, 0x1000000#32, 0xFFFFFF#32, 0x0#32] := by decide
theorem test_encode5_ID5Pu : columns (exec .encode5 (given 0x12345678#32 0x0#32 0x0#32 0x0#32)) =
    some [0x100#32, 0x0#32, 0x5#32, 0x50354449#32, 0x75#32, 0x0#32, 0x0#32, 0x0#32] := by decide
theorem test_encode5_2_to_30 : columns (exec .encode5 (given 0x40000000#32 0x0#32 0x0#32 0x0#32)) =
    some [0x1#32, 0x0#32, 0x0#32, 0x0#32, 0x0#32, 0x40000000#32, 0x3FFFFFFF#32, 0x0#32] := by decide
theorem test_decode1_stale_bytes : columns (exec .decode1 (given 0x0#32 0x1#32 0x2A2A2A46#32 0x2A#32)) =
    some [0x100#32, 0xF#32, 0x0#32, 0x0#32, 0x0#32, 0x0#32, 0x0#32, 0x0#32] := by decide
theorem test_decode1_two_characters : columns (exec .decode1 (given 0x0#32 0x2#32 0x4646#32 0x0#32)) =
    some [0x2#32, 0x0#32, 0x0#32, 0x0#32, 0x0#32, 0x2#32, 0x1#32, 0x0#32] := by decide
theorem test_decode2_Ve : columns (exec .decode2 (given 0x0#32 0x2#32 0x2A2A6556#32 0xFF#32)) =
    some [0x100#32, 0x7E8#32, 0x0#32, 0x0#32, 0x0#32, 0x0#32, 0x0#32, 0x0#32] := by decide
theorem test_decode2_bad_second : columns (exec .decode2 (given 0x0#32 0x2#32 0x2B61#32 0x0#32)) =
    some [0x3#32, 0x0#32, 0x0#32, 0x0#32, 0x0#32, 0x2B#32, 0x2#32, 0x1#32] := by decide
theorem test_decode3_U90 : columns (exec .decode3 (given 0x0#32 0x3#32 0x303955#32 0x0#32)) =
    some [0x100#32, 0x1E240#32, 0x0#32, 0x0#32, 0x0#32, 0x0#32, 0x0#32, 0x0#32] := by decide
theorem test_decode3_lowest_position : columns (exec .decode3 (given 0x0#32 0x3#32 0x5F2A2A#32 0x0#32)) =
    some [0x3#32, 0x0#32, 0x0#32, 0x0#32, 0x0#32, 0x2A#32, 0x3#32, 0x0#32] := by decide
theorem test_decode4_3q90 : columns (exec .decode4 (given 0x0#32 0x4#32 0x30397133#32 0x0#32)) =
    some [0x100#32, 0xF4240#32, 0x0#32, 0x0#32, 0x0#32, 0x0#32, 0x0#32, 0x0#32] := by decide
theorem test_decode4_bad_last : columns (exec .decode4 (given 0x0#32 0x4#32 0x2F747967#32 0x0#32)) =
    some [0x3#32, 0x0#32, 0x0#32, 0x0#32, 0x0#32, 0x2F#32, 0x4#32, 0x3#32] := by decide
theorem test_decode5_ID5Pu : columns (exec .decode5 (given 0x0#32 0x5#32 0x50354449#32 0x75#32)) =
    some [0x100#32, 0x12345678#32, 0x0#32, 0x0#32, 0x0#32, 0x0#32, 0x0#32, 0x0#32] := by decide
theorem test_decode5_bad_last : columns (exec .decode5 (given 0x0#32 0x5#32 0x30303030#32 0x2A#32)) =
    some [0x3#32, 0x0#32, 0x0#32, 0x0#32, 0x0#32, 0x2A#32, 0x5#32, 0x4#32] := by decide

/-- ENCODE3 after a failed ENCODE2, same DIN: every result register is rewritten (spec/95 section 2.10, rows 4, 5). -/
theorem test_encode3_clears_the_error :
    columns (exec .encode3 { given 0x1000#32 0#32 0#32 0#32 with
      results := raiseError { kind := .outOfRange, val := 0x1000#32, lim := 0xFFF#32, pos := 0#3 } }) =
    some [0x100#32, 0#32, 3#32, 0x303031#32, 0#32, 0#32, 0#32, 0#32] := by decide

/-- The five groups of ENCODE5's operand (spec/95 section 2.1). -/
theorem test_isolate :
    [GroupOffset.off24, .off18, .off12, .off6, .off0].map (isolate 0x12345678#32) =
      [18#6, 13#6, 5#6, 25#6, 56#6] := by decide

/-! ### Command words (spec/30 R91, R95; spec/95 sections 2.6 and 2.7), bit by bit: RSVD, WIDTH, OP -/

theorem test_word_encode5 : decodeCmd 0b00000000000000000000000001010001#32 = .ok .encode5 := by rfl
theorem test_word_decode3 : decodeCmd 0b00000000000000000000000000110010#32 = .ok .decode3 := by rfl
theorem test_word_symbolAt : decodeCmd 0b00000000000000000000000000000011#32 = .ok .symbolAt := by rfl
theorem test_word_indexOf : decodeCmd 0b00000000000000000000000000000100#32 = .ok .indexOf := by rfl

/-- Every constructor's word, decoded (R95). -/
theorem test_all_words :
    [(0b0010001, Instr.encode1), (0b0100001, .encode2), (0b0110001, .encode3), (0b1000001, .encode4),
     (0b1010001, .encode5), (0b0010010, .decode1), (0b0100010, .decode2), (0b0110010, .decode3),
     (0b1000010, .decode4), (0b1010010, .decode5), (0b0000011, .symbolAt), (0b0000100, .indexOf)].all
      (fun x => decodeTableWord 32 x.1 = some x.2 && (encode x.2).toNat = x.1) = true := by decide

/-- A word of more bits than the table gives, or of too many bits, is refused and not wrapped. -/
theorem test_tableWord_does_not_fit :
    decodeTableWord 32 0x100000011 = none ∧ decodeTableWord 40 0x11 = none ∧ decodeTableWord 32 0x91 = none := by
  decide

/-- The illegal words of spec/95 section 2.6, on its operands: STATUS, ERRVAL, ERRLIM. -/
theorem test_illegal_words :
    [0x0, 0x1, 0x61, 0x71, 0x2, 0x72, 0x13, 0x73, 0x14, 0x5, 0xF, 0x80, 0x91, 0x85, 0x80000011, 0xFFFFFFFF].map
      (fun v => (columns (execute (given 0xFFFFFFFF#32 0#32 0x2A2A2A2A#32 0#32) v)).map
        fun c => [c.getD 0 0, c.getD 5 0, c.getD 6 0]) =
    [some [5#32, 0x0#32, 0#32], some [4#32, 0#32, 5#32], some [4#32, 6#32, 5#32], some [4#32, 7#32, 5#32],
     some [4#32, 0#32, 5#32], some [4#32, 7#32, 5#32], some [4#32, 1#32, 0#32], some [4#32, 7#32, 0#32],
     some [4#32, 1#32, 0#32], some [5#32, 0x5#32, 0#32], some [5#32, 0xF#32, 0#32], some [5#32, 0x80#32, 0#32],
     some [5#32, 0x91#32, 0#32], some [5#32, 0x85#32, 0#32], some [5#32, 0x80000011#32, 0#32],
     some [5#32, 0xFFFFFFFF#32, 0#32]] := by decide

/-- BAD_WIDTH comes before INVALID_LENGTH (spec/95 section 2.7). -/
theorem test_priority :
    columns (execute (given 0#32 0#32 0x2A#32 0#32) 0x72#32) =
      some [4#32, 0#32, 0#32, 0#32, 0#32, 7#32, 5#32, 0#32] := by decide

/-! ### WellFormed: an ill-formed term for each check, which the check refuses -/

theorem test_wf_reserved : (fieldsOf 0x91#32).rsvdZero = false ∧ (fieldsOf 0x91#32).wellFormed = false := by decide
theorem test_wf_op : (fieldsOf 0x15#32).opAssigned = false ∧ (fieldsOf 0x15#32).wellFormed = false := by decide
theorem test_wf_width_encode : (fieldsOf 0x61#32).widthLegal = false ∧ (fieldsOf 0x01#32).widthLegal = false ∧
    (fieldsOf 0x61#32).wellFormed = false := by decide
theorem test_wf_width_symbolAt : (fieldsOf 0x13#32).widthLegal = false ∧ (fieldsOf 0x13#32).wellFormed = false := by
  decide
theorem test_wf_accepts : (fieldsOf 0x51#32).wellFormed = true ∧ (fieldsOf 0x03#32).wellFormed = true := by decide

/-! ### Bus accesses (spec/95 section 2.8) -/

/-- An access of the given width, all byte enables set. -/
def reading (o size : Nat) : Access := { kind := .read, addr := o, size := size, byteEnables := 0xF#4 }

/-- The write beside it. -/
def writing (o size : Nat) (v : Word) : Access :=
  { kind := .write v, addr := o, size := size, byteEnables := 0xF#4 }

theorem test_bus_reads :
    [0x00, 0x34, 0x7C, 0x20].map (fun o => (nextOf (step (afterFive (reading o 4)))).map State.reads) =
      [some [0#32], some [0x2A#32], some [0x5F2D7A79#32], some [0x35#32]] := by decide

theorem test_bus_refused_reads :
    [reading 0x22 4, reading 0x20 1, reading 0x20 2, reading 0x38 4, reading 0x3C 4, reading 0x80 4,
      reading 0xFC 4].map (fun a => busErrorsOf (step (afterFive a))) =
    [some [(0, .misaligned, some 0#32)], some [(0, .width, some 0#32)],
     some [(0, .width, some 0#32)], some [(0, .unmapped, some 0#32)],
     some [(0, .unmapped, some 0#32)], some [(0, .unmapped, some 0#32)],
     some [(0, .unmapped, some 0#32)]] := by decide

theorem test_bus_refused_writes :
    [writing 0x08 1 7#32, writing 0x00 2 0x21#32, writing 0x02 4 0x21#32, writing 0x04 4 0#32,
      writing 0x20 4 0x41414141#32, writing 0x34 4 0x2B#32, writing 0x40 4 0#32, writing 0x38 4 0x11#32].map
      (fun a => busErrorsOf (step (afterFive a))) =
    [some [(0, .width, none)], some [(0, .width, none)],
     some [(0, .misaligned, none)], some [(0, .readOnly, none)],
     some [(0, .readOnly, none)], some [(0, .readOnly, none)],
     some [(0, .readOnly, none)], some [(0, .unmapped, none)]] := by decide

/-- A write of DIN stores it; a write of SIN1 keeps only its low byte. -/
theorem test_bus_writes :
    (nextOf (step (afterFive (writing 0x08 4 7#32)))).map (fun t => (t.operands.din, t.results.rvalid)) =
      some (7#32, true) ∧
    (nextOf (step (afterFive (writing 0x14 4 0xFFFFFF41#32)))).map (fun t => t.operands.sin.toList) =
      some [0#8, 0#8, 0#8, 0#8, 0x41#8] := by decide

/-- A partial byte-enable mask is refused (R64). -/
theorem test_bus_partial_enables :
    busErrorsOf (step (afterFive { writing 0x08 4 7#32 with byteEnables := 0x7#4 })) =
      some [(0, .width, none)] := by decide

/-- Host 1 writes STATUS, which ends its program (spec/95 program P5); its write of DIN is not issued, and host 2's read
and the reset are (R75, R189). -/
theorem test_bus_other_hosts_go_on :
    (nextOf (Sys2Proof.core.run 3 { afterFive { writing 0x04 4 0#32 with host := 1 } with
      pending := [.access { writing 0x04 4 0#32 with host := 1 }, .access { writing 0x08 4 7#32 with host := 1 },
        .access { reading 0x08 4 with host := 2 }, .resetAssert] })).map
      (fun t => (t.faults.map fun f => (f.host, f.cause), t.reads, t.resetPhase, t.pending)) =
      some ([(1, .readOnly)], [5#32], .asserted, []) := by decide

/-! ### Reset, power and the placed command (spec/70 R200, R201; spec/95 section 2.9) -/

theorem test_reset_reads :
    [Reg.cmd, .status, .din, .slen, .sin0, .sin1, .dout, .soutLen, .sout0, .sout1, .errVal, .errLim, .errPos,
      .separator, .alphabet 0].map (memRead State.reset) =
    [0#32, 0#32, 0#32, 0#32, 0#32, 0#32, 0#32, 0#32, 0#32, 0#32, 0#32, 0#32, 0#32, 0x2A#32, 0x33323130#32] := by
  decide

theorem test_reset_zeroes :
    (nextOf (step { given 7#32 7#32 7#32 7#32 with pending := [.resetAssert] })).map
      (fun t => (t.operands = Operands.reset : Bool) && (t.resetPhase = .asserted : Bool)) = some true := by decide

theorem test_access_during_reset :
    faultOf (step { coming (.access (reading 0 4)) with resetPhase := .asserted }) = some .accessDuringReset := by
  decide

/-- After power-up DIN is the first draw, whatever it is (R45). -/
theorem test_power_up_draws :
    (nextOf (step (coming .powerUp))).map (fun t => t.operands.din) = some (Config.draw 0) := by rfl

theorem test_fetch_word_runs :
    columns (step (State.reset.withFetchWord 32 0x51)) =
      some [0x100#32, 0#32, 5#32, 0x30303030#32, 0x30#32, 0#32, 0#32, 0#32] := by decide

/-! ### The host's notation (spec/30 R102, R103) -/

theorem test_text_wr :
    parseLine "wr din, 0x1e240 ; the number".toList = .ok (some (.line (.wr .din 0x1E240))) := by rfl
theorem test_text_alphabet :
    parseLine "RD ALPHABET15 -> 0x5F2D7A79".toList = .ok (some (.line (.rdExpect (.alphabet 15) 0x5F2D7A79))) := by
  rfl
theorem test_text_binary : parseLine "SYM 0b111111".toList = .ok (some (.pseudo (.sym 63))) := by rfl
theorem test_text_too_large :
    assembleLine resetParams (.wr .din 0x100000000) = .error (.immediateTooLarge 0x100000000) := by rfl

/-- A quote that is never closed is no line, whatever stands after it (log entry 18). -/
theorem test_text_open_quote :
    parseLine "IDX '5".toList = .error .notALine ∧ parseLine "RD 'STATUS".toList = .error .notALine := ⟨rfl, rfl⟩

/-- An IDX code above 0xFF is written as 0x00, and a number of 2^32 or more is refused (log entry 18). -/
theorem test_idx_codes :
    expand (.idx 0x100) = .ok [.wr .sin0 0, .cmd .indexOf, .rd .status, .rd .dout] ∧
    expand (.idx 0x100000000) = .error (.immediateTooLarge 0x100000000) := ⟨rfl, rfl⟩

/-- An index that DIN cannot hold is reported; 64 reaches the block (R117, R211; log entry 26). -/
theorem test_library_symbol :
    librarySymbol resetParams (.integer (2 ^ 32)) = .error .outOfRange ∧
    (librarySymbol resetParams (.integer 64)).isOk = true := by decide

/-- An opening quote ends the word before it (log entry 18). -/
theorem test_quote_ends_word :
    parseLine "IDX'5'".toList = .ok (some (.pseudo (.idx 0x35))) ∧
    parseLine "DEC'Ve',2".toList = .ok (some (.pseudo (.dec [0x56, 0x65] 2))) := ⟨rfl, rfl⟩

/-- The library reports the original character at the position of ERRPOS (R208). -/
theorem test_original_character :
    decodeReport [0x46, 0x20AC] [0x003#32, 0#32, 1#32] = .error (.unknownSymbol 0x20AC) ∧
    indexReport 0x20AC [0x003#32, 0#32] = .error (.unknownSymbol 0x20AC) := ⟨rfl, rfl⟩

/-- `DEC "Ve", 2` (R103): SIN0, SIN1, SLEN, DECODE2, STATUS, DOUT. -/
theorem test_dec_expansion :
    (match parseLine "DEC 'Ve', 2".toList with
     | .ok (some q) => linesOf q
     | .ok none => .ok []
     | .error e => .error e) =
    .ok [.wr .sin0 0x6556, .wr .sin1 0, .wr .slen 2, .cmd .decode2, .rd .status, .rd .dout] := by rfl

theorem test_encode_for :
    expand (.encodeFor 7) = .ok [.wr .cmd 0x71] ∧ expand (.decodeFor 8) = .error (.widthTooLarge 8) := ⟨rfl, rfl⟩

/-! ### Witnesses: every hypothesis of each obligation, met together, at the boundary of each clause -/

/-- The next event arrives. -/
theorem arrives_coming (e : Event) : Arrives (coming e) e [] := ⟨rfl, fun h => by cases h⟩

theorem test_witness_IllegalWordCommitsItsError :
    ((0x80#32).toNat / 128 ≠ 0 ∧ (0x10#32).toNat % 16 = 0 ∧ 4 < (0x5#32).toNat % 16) ∧
    ((0x01#32).toNat / 128 = 0 ∧ (0x01#32).toNat % 16 = 1 ∧ (0x01#32).toNat / 16 = 0) ∧
    ((0x62#32).toNat / 128 = 0 ∧ (0x62#32).toNat % 16 = 2 ∧ 5 < (0x62#32).toNat / 16) ∧
    ((0x13#32).toNat / 128 = 0 ∧ (0x13#32).toNat % 16 = 3 ∧ (0x13#32).toNat / 16 ≠ 0) ∧
    ((0x51#32).toNat / 128 = 0 ∧ (0x51#32).toNat % 16 = 1 ∧ (0x51#32).toNat / 16 = 5) ∧
    ((0x04#32).toNat / 128 = 0 ∧ (0x04#32).toNat % 16 = 4 ∧ (0x04#32).toNat / 16 = 0) := by decide

theorem test_witness_TablesAreInverse : REV 0x5F#8 = some 63#6 := by decide

theorem test_witness_SymbolAtResult :
    (given 63#32 0#32 0#32 0#32).operands.din ≤ 63#32 ∧ 63#32 < (given 64#32 0#32 0#32 0#32).operands.din ∧
    (0x13#32).toNat % 16 = 3 ∧ 0x13#32 ≠ 3#32 := by decide

theorem test_witness_IndexOfResult :
    REV (given 0#32 0#32 0x30#32 0#32).operands.sin.c0 = some 0#6 ∧
    REV (given 0#32 0#32 0x3A#32 0#32).operands.sin.c0 = none ∧ (0x14#32).toNat % 16 = 4 ∧ 0x14#32 ≠ 4#32 := by decide

theorem test_witness_SymbolAndIndexCommandsInvert :
    (given 63#32 0#32 0#32 0#32).operands.din ≤ 63#32 ∧ REV (given 0#32 0#32 0x5F#32 0#32).operands.sin.c0 ≠ none := by
  decide

/-- Each width's largest value, and the first value out of range. -/
theorem test_witness_EncodeResults :
    (0x3F#32 ≤ 0x3F#32 ∧ 0x3F#32 < 0x40#32) ∧ (0xFFF#32 ≤ 0xFFF#32 ∧ 0xFFF#32 < 0x1000#32) ∧
    (0x3FFFF#32 ≤ 0x3FFFF#32 ∧ 0x3FFFF#32 < 0x40000#32) ∧ (0xFFFFFF#32 ≤ 0xFFFFFF#32 ∧ 0xFFFFFF#32 < 0x1000000#32) ∧
    (0x3FFFFFFF#32 ≤ 0x3FFFFFFF#32 ∧ 0x3FFFFFFF#32 < 0x40000000#32) := by decide

theorem test_witness_EncodeSucceedsExactlyInRange :
    (nextOf (exec (encodeInstr .w2) (given 0x1000#32 0#32 0#32 0#32))).map (fun t => t.results.rvalid) = some false := by
  decide

theorem test_witness_EncodedStringProperties :
    ∃ t, exec (encodeInstr .w5) (given 0x3FFFFFFF#32 0#32 0#32 0#32) = .next t ∧ t.results.rvalid = true :=
  ⟨_, rfl, rfl⟩

theorem test_witness_Decode1Result :
    (given 0#32 0#32 0#32 0#32).operands.slen ≠ 1#32 ∧
    ((given 0#32 1#32 0x5F5F5F2A#32 0x5F#32).operands.slen = 1#32 ∧
      REV (given 0#32 1#32 0x5F5F5F2A#32 0x5F#32).operands.sin.c0 = none) ∧
    ((given 0#32 1#32 0x5F5F5F5F#32 0x5F#32).operands.slen = 1#32 ∧
      REV (given 0#32 1#32 0x5F5F5F5F#32 0x5F#32).operands.sin.c0 = some 63#6) := by decide

theorem test_witness_Decode2Result :
    (given 0#32 1#32 0#32 0#32).operands.slen ≠ 2#32 ∧
    ((given 0#32 2#32 0x5F5F5F2A#32 0x5F#32).operands.slen = 2#32 ∧
      REV (given 0#32 2#32 0x5F5F5F2A#32 0x5F#32).operands.sin.c0 = none) ∧
    ((given 0#32 2#32 0x5F5F2A5F#32 0x5F#32).operands.slen = 2#32 ∧
      REV (given 0#32 2#32 0x5F5F2A5F#32 0x5F#32).operands.sin.c0 ≠ none ∧
      REV (given 0#32 2#32 0x5F5F2A5F#32 0x5F#32).operands.sin.c1 = none) ∧
    ((given 0#32 2#32 0x5F5F5F5F#32 0x5F#32).operands.slen = 2#32 ∧
      REV (given 0#32 2#32 0x5F5F5F5F#32 0x5F#32).operands.sin.c0 = some 63#6 ∧
      REV (given 0#32 2#32 0x5F5F5F5F#32 0x5F#32).operands.sin.c1 = some 63#6) := by decide

theorem test_witness_Decode3Result :
    (given 0#32 2#32 0#32 0#32).operands.slen ≠ 3#32 ∧
    ((given 0#32 3#32 0x5F5F5F2A#32 0x5F#32).operands.slen = 3#32 ∧
      REV (given 0#32 3#32 0x5F5F5F2A#32 0x5F#32).operands.sin.c0 = none) ∧
    ((given 0#32 3#32 0x5F5F2A5F#32 0x5F#32).operands.slen = 3#32 ∧
      REV (given 0#32 3#32 0x5F5F2A5F#32 0x5F#32).operands.sin.c0 ≠ none ∧
      REV (given 0#32 3#32 0x5F5F2A5F#32 0x5F#32).operands.sin.c1 = none) ∧
    ((given 0#32 3#32 0x5F2A5F5F#32 0x5F#32).operands.slen = 3#32 ∧
      REV (given 0#32 3#32 0x5F2A5F5F#32 0x5F#32).operands.sin.c0 ≠ none ∧
      REV (given 0#32 3#32 0x5F2A5F5F#32 0x5F#32).operands.sin.c1 ≠ none ∧
      REV (given 0#32 3#32 0x5F2A5F5F#32 0x5F#32).operands.sin.c2 = none) ∧
    ((given 0#32 3#32 0x5F5F5F5F#32 0x5F#32).operands.slen = 3#32 ∧
      REV (given 0#32 3#32 0x5F5F5F5F#32 0x5F#32).operands.sin.c0 = some 63#6 ∧
      REV (given 0#32 3#32 0x5F5F5F5F#32 0x5F#32).operands.sin.c1 = some 63#6 ∧
      REV (given 0#32 3#32 0x5F5F5F5F#32 0x5F#32).operands.sin.c2 = some 63#6) := by decide

theorem test_witness_Decode4Result :
    (given 0#32 3#32 0#32 0#32).operands.slen ≠ 4#32 ∧
    ((given 0#32 4#32 0x5F5F5F2A#32 0x5F#32).operands.slen = 4#32 ∧
      REV (given 0#32 4#32 0x5F5F5F2A#32 0x5F#32).operands.sin.c0 = none) ∧
    ((given 0#32 4#32 0x5F5F2A5F#32 0x5F#32).operands.slen = 4#32 ∧
      REV (given 0#32 4#32 0x5F5F2A5F#32 0x5F#32).operands.sin.c0 ≠ none ∧
      REV (given 0#32 4#32 0x5F5F2A5F#32 0x5F#32).operands.sin.c1 = none) ∧
    ((given 0#32 4#32 0x5F2A5F5F#32 0x5F#32).operands.slen = 4#32 ∧
      REV (given 0#32 4#32 0x5F2A5F5F#32 0x5F#32).operands.sin.c0 ≠ none ∧
      REV (given 0#32 4#32 0x5F2A5F5F#32 0x5F#32).operands.sin.c1 ≠ none ∧
      REV (given 0#32 4#32 0x5F2A5F5F#32 0x5F#32).operands.sin.c2 = none) ∧
    ((given 0#32 4#32 0x2A5F5F5F#32 0x5F#32).operands.slen = 4#32 ∧
      REV (given 0#32 4#32 0x2A5F5F5F#32 0x5F#32).operands.sin.c0 ≠ none ∧
      REV (given 0#32 4#32 0x2A5F5F5F#32 0x5F#32).operands.sin.c1 ≠ none ∧
      REV (given 0#32 4#32 0x2A5F5F5F#32 0x5F#32).operands.sin.c2 ≠ none ∧
      REV (given 0#32 4#32 0x2A5F5F5F#32 0x5F#32).operands.sin.c3 = none) ∧
    ((given 0#32 4#32 0x5F5F5F5F#32 0x5F#32).operands.slen = 4#32 ∧
      REV (given 0#32 4#32 0x5F5F5F5F#32 0x5F#32).operands.sin.c0 = some 63#6 ∧
      REV (given 0#32 4#32 0x5F5F5F5F#32 0x5F#32).operands.sin.c1 = some 63#6 ∧
      REV (given 0#32 4#32 0x5F5F5F5F#32 0x5F#32).operands.sin.c2 = some 63#6 ∧
      REV (given 0#32 4#32 0x5F5F5F5F#32 0x5F#32).operands.sin.c3 = some 63#6) := by decide

theorem test_witness_Decode5Result :
    (given 0#32 4#32 0#32 0#32).operands.slen ≠ 5#32 ∧
    ((given 0#32 5#32 0x5F5F5F2A#32 0x5F#32).operands.slen = 5#32 ∧
      REV (given 0#32 5#32 0x5F5F5F2A#32 0x5F#32).operands.sin.c0 = none) ∧
    ((given 0#32 5#32 0x5F5F2A5F#32 0x5F#32).operands.slen = 5#32 ∧
      REV (given 0#32 5#32 0x5F5F2A5F#32 0x5F#32).operands.sin.c0 ≠ none ∧
      REV (given 0#32 5#32 0x5F5F2A5F#32 0x5F#32).operands.sin.c1 = none) ∧
    ((given 0#32 5#32 0x5F2A5F5F#32 0x5F#32).operands.slen = 5#32 ∧
      REV (given 0#32 5#32 0x5F2A5F5F#32 0x5F#32).operands.sin.c0 ≠ none ∧
      REV (given 0#32 5#32 0x5F2A5F5F#32 0x5F#32).operands.sin.c1 ≠ none ∧
      REV (given 0#32 5#32 0x5F2A5F5F#32 0x5F#32).operands.sin.c2 = none) ∧
    ((given 0#32 5#32 0x2A5F5F5F#32 0x5F#32).operands.slen = 5#32 ∧
      REV (given 0#32 5#32 0x2A5F5F5F#32 0x5F#32).operands.sin.c0 ≠ none ∧
      REV (given 0#32 5#32 0x2A5F5F5F#32 0x5F#32).operands.sin.c1 ≠ none ∧
      REV (given 0#32 5#32 0x2A5F5F5F#32 0x5F#32).operands.sin.c2 ≠ none ∧
      REV (given 0#32 5#32 0x2A5F5F5F#32 0x5F#32).operands.sin.c3 = none) ∧
    ((given 0#32 5#32 0x5F5F5F5F#32 0x2A#32).operands.slen = 5#32 ∧
      REV (given 0#32 5#32 0x5F5F5F5F#32 0x2A#32).operands.sin.c0 ≠ none ∧
      REV (given 0#32 5#32 0x5F5F5F5F#32 0x2A#32).operands.sin.c1 ≠ none ∧
      REV (given 0#32 5#32 0x5F5F5F5F#32 0x2A#32).operands.sin.c2 ≠ none ∧
      REV (given 0#32 5#32 0x5F5F5F5F#32 0x2A#32).operands.sin.c3 ≠ none ∧
      REV (given 0#32 5#32 0x5F5F5F5F#32 0x2A#32).operands.sin.c4 = none) ∧
    ((given 0#32 5#32 0x5F5F5F5F#32 0x5F#32).operands.slen = 5#32 ∧
      REV (given 0#32 5#32 0x5F5F5F5F#32 0x5F#32).operands.sin.c0 = some 63#6 ∧
      REV (given 0#32 5#32 0x5F5F5F5F#32 0x5F#32).operands.sin.c1 = some 63#6 ∧
      REV (given 0#32 5#32 0x5F5F5F5F#32 0x5F#32).operands.sin.c2 = some 63#6 ∧
      REV (given 0#32 5#32 0x5F5F5F5F#32 0x5F#32).operands.sin.c3 = some 63#6 ∧
      REV (given 0#32 5#32 0x5F5F5F5F#32 0x5F#32).operands.sin.c4 = some 63#6) := by decide

theorem test_witness_UnknownSymbolIsTheLowestPosition :
    (given 0#32 5#32 0x30303030#32 0x2A#32).operands.slen.toNat = Width.w5.digits ∧
    ∃ b ∈ (given 0#32 5#32 0x30303030#32 0x2A#32).operands.sin.toList.take Width.w5.digits, REV b = none := by decide

theorem test_witness_DecodeIsABijection :
    (∃ t, exec (decodeInstr .w1) (given 0#32 1#32 0x5F#32 0#32) = .next t ∧ t.results.rvalid = true) ∧
    (given 0#32 5#32 0x5F5F5F5F#32 0x5F#32).operands.slen.toNat = Width.w5.digits ∧
    ValidString .w5 ((given 0#32 5#32 0x5F5F5F5F#32 0x5F#32).operands.sin.toList.take Width.w5.digits) ∧
    (0x3FFFFFFF#32).toNat ≤ 2 ^ (6 * Width.w5.digits) - 1 :=
  ⟨⟨_, rfl, rfl⟩, by decide, ⟨by decide, by decide⟩, by decide⟩

theorem test_witness_EncodeDecodeRoundTrip :
    (given 0x3FFFFFFF#32 0#32 0#32 0#32).operands.din.toNat ≤ 2 ^ (6 * Width.w5.digits) - 1 ∧
    (given 0#32 1#32 0x2D#32 0#32).operands.slen.toNat = Width.w1.digits ∧
    ValidString .w1 ((given 0#32 1#32 0x2D#32 0#32).operands.sin.toList.take Width.w1.digits) :=
  ⟨by decide, by decide, ⟨by decide, by decide⟩⟩

/-- DECODE1 in two states that differ in DIN, in SIN[1] and in the results; and a word that is no command. -/
theorem test_witness_ResultsDependOnlyOnOperandsRead :
    (∀ i, decodeCmd 0x12#32 = .ok i →
      AgreeOnReads i (given 0#32 1#32 0x4146#32 0#32).operands (given 9#32 1#32 0x2A46#32 0#32).operands) ∧
    (∀ i, decodeCmd 0x0#32 = .ok i →
      AgreeOnReads i (given 0#32 1#32 0x41#32 0#32).operands (given 9#32 2#32 0x2A#32 0#32).operands) := by
  constructor
  · intro i h
    have h' : Except.ok Instr.decode1 = (Except.ok i : Except DecodeError Instr) := h
    cases h'
    exact ⟨rfl, rfl⟩
  · intro i h
    have h' : (Except.error (DecodeError.badOpcode 0#32) : Except DecodeError Instr) = .ok i := h
    cases h'

theorem test_witness_RepeatedWriteChangesNothing :
    (∃ t, memWrite State.reset 0x51#32 .cmd = .ok (.next t)) ∧ (∃ t, memWrite State.reset 0xFFFFFF41#32 .sin1 = .ok (.next t)) :=
  ⟨⟨_, rfl⟩, ⟨_, rfl⟩⟩

/-- The offsets where the clauses of the map meet, and the outcome of a read there: mapped or not. -/
theorem test_witness_ReadOfEveryAlignedOffset :
    (∀ o ∈ [0x00, 0x04, 0x34, 0x38, 0x3C, 0x40, 0x7C, 0x80, 0xFC], o < 256 ∧ o % 4 = 0 ∧
      Arrives (coming (.access (fullAccess State.reset 1 .read o)))
        (.access (fullAccess (coming (.access (fullAccess State.reset 1 .read o))) 1 .read o)) []) ∧
    [0x00, 0x04, 0x34, 0x38, 0x3C, 0x40, 0x7C, 0x80, 0xFC].map (fun o => (readValue State.reset o).isSome) =
      [true, true, true, false, false, true, true, false, false] :=
  ⟨fun o ho => ⟨by revert o; decide, by revert o; decide, rfl, fun h => by cases h⟩, by decide⟩

theorem test_witness_WriteOfEveryAlignedOffset :
    ∀ o ∈ [0x00, 0x04, 0x08, 0x14, 0x18, 0x34, 0x38, 0x3C, 0x40, 0x7C, 0x80, 0xFC], o < 256 ∧ o % 4 = 0 ∧
      Arrives (coming (.access (fullAccess State.reset 1 (.write 0x21#32) o)))
        (.access (fullAccess (coming (.access (fullAccess State.reset 1 (.write 0x21#32) o))) 1 (.write 0x21#32) o)) [] :=
  fun o ho => ⟨by revert o; decide, by revert o; decide, rfl, fun h => by cases h⟩

theorem test_witness_NarrowOrMisalignedAccessRefused :
    (0 ≤ (reading 0xFF 1).addr ∧ (reading 0xFF 1).addr < 256 ∧ (reading 0xFF 1).size ≠ 4 ∧
      Arrives (coming (.access (reading 0xFF 1))) (.access (reading 0xFF 1)) []) ∧
    (∀ a ∈ [{ reading 0x04 4 with byteEnables := 0x7#4 }, { writing 0x00 4 0x21#32 with byteEnables := 0xE#4 }],
      resetParams.base ≤ a.addr ∧ a.addr < resetParams.base + 256 ∧ a.size = 4 ∧ a.byteEnables ≠ 0xF#4 ∧
      Arrives (coming (.access a)) (.access a) []) ∧
    ((writing 2 4 0x21#32).size = 4 ∧ (writing 2 4 0x21#32).byteEnables = 0xF#4 ∧
      ((writing 2 4 0x21#32).addr - resetParams.base) % 4 ≠ 0 ∧
      Arrives (coming (.access (writing 2 4 0x21#32))) (.access (writing 2 4 0x21#32)) []) :=
  ⟨⟨by decide, by decide, by decide, arrives_coming _⟩,
    fun a ha => ⟨by revert a; decide, by revert a; decide, by revert a; decide, by revert a; decide, arrives_coming (.access a)⟩,
    ⟨by decide, by decide, by decide, arrives_coming _⟩⟩

/-- A served access and one that is not, each inside the window and about to arrive. -/
theorem test_witness_BusErrorExactlyWhenNotServed :
    (Arrives (coming (.access (reading 0xFC 4))) (.access (reading 0xFC 4)) [] ∧
      resetParams.base ≤ (reading 0xFC 4).addr ∧ (reading 0xFC 4).addr < resetParams.base + 256) ∧
    served resetParams (reading 0x7C 4) :=
  ⟨⟨arrives_coming _, by decide, by decide⟩, ⟨.alphabet 15, rfl, rfl, rfl, fun v h => by cases h⟩⟩

/-- The first address past the window, and the last one before a window at page 1. -/
theorem test_witness_OutsideWindowRefused :
    (resetParams.base + 256 ≤ (reading 0x100 4).addr ∧
      Arrives (coming (.access (reading 0x100 4))) (.access (reading 0x100 4)) []) ∧
    ((reading 0xFF 4).addr < (withPage 1 (coming (.access (reading 0xFF 4)))).params.base ∧
      Arrives (withPage 1 (coming (.access (reading 0xFF 4)))) (.access (reading 0xFF 4)) []) :=
  ⟨⟨by decide, arrives_coming _⟩, ⟨by decide, ⟨rfl, by decide⟩⟩⟩

theorem test_witness_OnlyTheOffsetIsDecoded :
    (coming (.access (reading 0xFC 4))).pending = [.access (reading 0xFC 4)] ∧
    (∀ a, Event.access (reading 0xFC 4) = .access a →
      resetParams.base ≤ a.addr ∧ a.addr < resetParams.base + 256) := by
  refine ⟨rfl, ?_⟩
  rintro a h
  cases h
  decide

theorem test_witness_StepRunsTheDecodedCommand :
    Arrives (coming (.access (fullAccess State.reset 1 (.write 0x51#32) 0)))
      (.access (fullAccess (coming (.access (fullAccess State.reset 1 (.write 0x51#32) 0))) 1 (.write 0x51#32) 0)) [] ∧
    decodeCmd 0x51#32 = .ok .encode5 :=
  ⟨⟨rfl, by decide⟩, rfl⟩

/-- A command followed by a read of STATUS. -/
def commandThenRead : State :=
  { State.reset with
    pending := [.access (writeAccess resetParams .cmd 0x51#32), .access (readAccess resetParams .status)] }

theorem test_witness_ReadAfterCommandSeesItsResult :
    Arrives commandThenRead (.access (fullAccess commandThenRead 0 (.write 0x51#32) 0))
      [.access (fullAccess commandThenRead 0 .read Reg.status.offset)] := ⟨rfl, by decide⟩

theorem test_witness_OnlyItsWritersChangeARegister :
    (∃ t, step commandThenRead = .next t ∧ t.results ≠ commandThenRead.results) ∧
    (∃ t, step (coming (.access (writeAccess resetParams .sin1 0x41#32))) = .next t ∧
      t.operands ≠ State.reset.operands) :=
  ⟨⟨_, rfl, by decide⟩, ⟨_, rfl, by decide⟩⟩

theorem test_witness_EveryStepKeepsTheInvariant :
    Inv commandThenRead ∧ ∃ t, step commandThenRead = .next t :=
  ⟨⟨⟨by decide, by decide, by decide⟩, fun _ => .inl rfl, fun h => by cases h⟩, ⟨_, rfl⟩⟩

theorem test_witness_ErrorCodesSixAndSevenNeverWritten : ∃ t, step (coming .powerUp) = .next t := ⟨_, rfl⟩

/-- A queue of two served accesses, and one in which the second access, of host 1, is refused. -/
theorem test_witness_ServedAccessesRunToTheEnd :
    (commandThenRead.resetPhase ≠ .asserted ∧
      (∀ e ∈ commandThenRead.pending, ∃ a, e = .access a ∧
        resetParams.base ≤ a.addr ∧ a.addr < resetParams.base + 256) ∧
      ∀ a, .access a ∈ commandThenRead.pending → served commandThenRead.params a) ∧
    (∀ e ∈ [Event.access (reading 0x08 4), .access { reading 0xFC 4 with host := 1 }], ∃ a, e = .access a ∧
      resetParams.base ≤ a.addr ∧ a.addr < resetParams.base + 256) ∧
    ¬ served resetParams { reading 0xFC 4 with host := 1 } := by
  refine ⟨⟨by decide, ?_, ?_⟩, ?_, ?_⟩
  · rintro e (_ | ⟨_, _ | ⟨_, h⟩⟩)
    · exact ⟨_, rfl, by decide, by decide⟩
    · exact ⟨_, rfl, by decide, by decide⟩
    · cases h
  · rintro a (_ | ⟨_, _ | ⟨_, h⟩⟩)
    · exact ⟨.cmd, rfl, rfl, rfl, fun _ _ => rfl⟩
    · exact ⟨.status, rfl, rfl, rfl, fun v h => by cases h⟩
    · cases h
  · rintro e (_ | ⟨_, _ | ⟨_, h⟩⟩)
    · exact ⟨_, rfl, by decide, by decide⟩
    · exact ⟨_, rfl, by decide, by decide⟩
    · cases h
  · rintro ⟨q, hq, -⟩
    have h0 : ∀ k : Fin 16, (Reg.alphabet k).offset ≠ 0xFC := by decide
    have h1 : (0xFC : Nat) = 0 + q.offset := hq
    cases q with
    | alphabet k => exact h0 k (by omega)
    | _ => cases h1

theorem test_witness_ResetZeroesTheStorage :
    (coming .resetAssert).pending = [.resetAssert] ∧
    ({ coming .resetRelease with resetPhase := .asserted } : State).pending = [.resetRelease] ∧
    ({ coming .resetRelease with resetPhase := .asserted } : State).resetPhase = .asserted := by decide

theorem test_witness_AccessDuringResetHasNoStep :
    ({ coming (.access (reading 0 4)) with resetPhase := .asserted } : State).pending = [.access (reading 0 4)] ∧
    ({ coming (.access (reading 0 4)) with resetPhase := .asserted } : State).resetPhase = .asserted := by decide

theorem test_witness_FirstCommandAfterReset : ResetApplied State.reset := ⟨rfl, rfl, rfl⟩

/-- Two states that differ in their storage, and power comes back in both. -/
theorem test_witness_PowerUpForgetsTheStorage :
    (coming .powerUp).pending = [.powerUp] ∧
    ({ given 7#32 7#32 7#32 7#32 with pending := [.powerUp] } : State).pending = [.powerUp] ∧
    (coming .powerUp).resetPhase ≠ .asserted ∧ (given 7#32 7#32 7#32 7#32).resetPhase ≠ .asserted ∧
    (coming .powerUp).draws = (given 7#32 7#32 7#32 7#32).draws ∧
    (coming .powerUp).operands ≠ (given 7#32 7#32 7#32 7#32).operands := by decide

theorem test_witness_WidthSelectorIsStrict : 8 ≤ 8 ∧ 7 < 8 ∧ (5 = Width.w5.digits) ∧ (7 = 0 ∨ 7 = 6 ∨ 7 = 7) := by
  decide

theorem test_witness_HostReportsWhatRegistersCannotHold :
    ((-1 : Int) < 0 ∧ 8 ≤ (8 : Int)) ∧ (0 ≤ (7 : Int) ∧ (7 : Int) < 8) ∧ (2 ^ 32 ≤ (2 ^ 32 : Int)) ∧
    (0 ≤ (2 ^ 32 - 1 : Int) ∧ (2 ^ 32 - 1 : Int) < 2 ^ 32) ∧
    (2 ^ 32 ≤ (List.replicate (2 ^ 32) 0x41).length ∧ [0x41].length < 2 ^ 32) ∧ 0xFF < 0x100 := by
  refine ⟨by decide, by decide, by decide, by decide, ⟨?_, by decide⟩, by decide⟩
  rw [List.length_replicate]

/-- A string of symbols, one whose second character is no byte, and one of the wrong length. -/
theorem test_witness_LibraryReportsTheOriginalCharacter :
    State.reset.resetPhase ≠ .asserted ∧ [0x46, 0x20AC].length < 2 ^ 32 ∧ [0x46, 0x20AC].length ≠ Width.w1.digits ∧
    [0x46, 0x20AC].length = Width.w2.digits ∧ IsSymbol 0x46 ∧ ¬ IsSymbol 0x20AC := by
  refine ⟨by decide, by decide, by decide, by decide, ⟨by decide, by decide⟩, fun h => ?_⟩
  exact absurd h.1 (by decide)

/-- Host 1 runs ENCODE5 and reads STATUS; host 2 reads DOUT after it. -/
def programOfHostOne : List Access :=
  [{ writeAccess resetParams .cmd 0x51#32 with host := 1 }, { readAccess resetParams .status with host := 1 }]

/-- The queue of both hosts. -/
def twoHosts : State :=
  { State.reset with
    pending := programOfHostOne.map Event.access ++ [.access { readAccess resetParams .dout with host := 2 }] }

theorem test_witness_LaunchPremisesGiveTheProgramsOwnRun :
    LaunchPremises 1 programOfHostOne twoHosts ∧
    ∀ e ∈ twoHosts.pending.take (runLength 1 twoHosts.pending), ∃ a, e = .access a := by
  refine ⟨⟨.inr rfl, ⟨rfl, rfl, rfl⟩, ?_, ⟨rfl, by decide⟩, ⟨_, rfl, rfl⟩⟩, ?_⟩
  · intro before between after a b hq ha hb c hc
    rcases before with _ | ⟨x, _ | ⟨y, _ | ⟨z, before⟩⟩⟩ <;>
      rcases between with _ | ⟨u, _ | ⟨v, between⟩⟩ <;>
      simp [twoHosts, programOfHostOne] at hq hc
    obtain ⟨-, rfl, rfl, -⟩ := hq
    cases hb
  · rintro e (_ | ⟨_, _ | ⟨_, h⟩⟩)
    · exact ⟨_, rfl⟩
    · exact ⟨_, rfl⟩
    · cases h

/-- With host 2's access between the two of host 1 the premise fails. -/
theorem test_exclusiveHost_broken :
    ¬ ExclusiveHost 1 { State.reset with
      pending := [.access { reading 4 4 with host := 1 }, .access { reading 4 4 with host := 2 },
        .access { reading 4 4 with host := 1 }] } := by
  intro hx
  have h2 := hx [] [.access { reading 4 4 with host := 2 }] [] { reading 4 4 with host := 1 }
    { reading 4 4 with host := 1 } rfl rfl rfl { reading 4 4 with host := 2 } (by simp)
  cases h2

theorem test_witness_AssemblerNeverTruncates : 2 ^ 32 ≤ 2 ^ 32 ∧ 2 ^ 32 - 1 < 2 ^ 32 := by decide

end Sys2Proof.Tests
end

/-! PROOFS. The block's storage (10_state.md): what every word written to CMD commits, what a step can do to the
storage, and the obligations on registers, the invariant, reset and power-up. -/

namespace Sys2Proof.Proofs

open Sys2Proof.Machine Sys2Proof.Safety Sys2Proof.Laws Sys2Proof.Claims

/-! ### What a command commits -/

/-- The three forms of the results a word written to CMD commits (R99, R181): a value below 2^30, a string of at most
five symbols, or an error whose position is non-zero only for an unknown symbol. -/
inductive CommitForm : Results → Prop
  | value (dout : Word) (hlt : dout < 0x40000000#32) : CommitForm (commitOK dout [] 0)
  | string (l : List Byte) (hlen : l.length ≤ 5) (hsym : ∀ b ∈ l, REV b ≠ none) :
      CommitForm (commitOK 0#32 l l.length)
  | error (e : CmdError) (hpos : e.pos ≤ 4#3) (hkind : e.pos ≠ 0#3 → e.kind = .unknownSymbol) :
      CommitForm (raiseError e)

/-- Every symbol of the table has an index (R114). -/
theorem REV_SYM_ne_none : ∀ i : BitVec 6, REV (SYM i) ≠ none := by decide

theorem length_groupOffsets (w : Width) : (groupOffsets w).length = w.digits := by
  cases w <;> rfl

theorem digits_le_five (w : Width) : w.digits ≤ 5 := by
  cases w <;> decide

/-- An error at position 0 has the form of an error, whatever its kind. -/
theorem commitForm_error_at_zero (k : ErrKind) (val lim : Word) :
    CommitForm (raiseError { kind := k, val := val, lim := lim, pos := 0#3 }) :=
  .error _ (by simp) fun h => absurd rfl h

theorem encodeN_form (w : Width) (o : Operands) : CommitForm (encodeN w o) := by
  unfold encodeN
  split
  · exact commitForm_error_at_zero _ _ _
  · have hlen : ((groupOffsets w).map fun off => SYM (isolate o.din off)).length = w.digits := by
      rw [List.length_map, length_groupOffsets]
    rw [← hlen]
    refine .string _ (hlen ▸ digits_le_five w) fun b hb => ?_
    obtain ⟨off, -, rfl⟩ := List.mem_map.1 hb
    exact REV_SYM_ne_none _

theorem symbolAtCmd_form (o : Operands) : CommitForm (symbolAtCmd o) := by
  unfold symbolAtCmd
  split
  · exact commitForm_error_at_zero _ _ _
  · refine .string [_] (by simp) fun b hb => ?_
    rw [List.mem_singleton.1 hb]
    exact REV_SYM_ne_none _

/-- An index is six bits, so it stays below 2^6 as a word. -/
theorem index_toNat_lt (r : BitVec 6) : (r.setWidth 32).toNat < 2 ^ 6 := by
  rw [BitVec.toNat_setWidth_of_le (by decide)]
  exact r.isLt

theorem indexOfCmd_form (o : Operands) : CommitForm (indexOfCmd o) := by
  unfold indexOfCmd
  split
  · exact commitForm_error_at_zero _ _ _
  · next r _ =>
    have hr := index_toNat_lt r
    refine .value _ (BitVec.lt_def.2 ?_)
    simp only [BitVec.toNat_ofNat]
    omega

/-- The weighted index of one of the last five positions is below 2^30. -/
theorem weighed_index_lt (r : BitVec 6) {k : Nat} (hk : k ≤ 4) : (r.setWidth 32 <<< (6 * k)).toNat < 2 ^ 30 := by
  have hpow : 2 ^ (6 * k) ≤ 2 ^ 24 := Nat.pow_le_pow_right (by decide) (by omega)
  rw [BitVec.toNat_shiftLeft, Nat.shiftLeft_eq]
  calc (r.setWidth 32).toNat * 2 ^ (6 * k) % 2 ^ 32
      ≤ (r.setWidth 32).toNat * 2 ^ (6 * k) := Nat.mod_le _ _
    _ ≤ (r.setWidth 32).toNat * 2 ^ 24 := Nat.mul_le_mul_left _ hpow
    _ < 2 ^ 6 * 2 ^ 24 := Nat.mul_lt_mul_of_pos_right (index_toNat_lt r) (by decide)
    _ = 2 ^ 30 := by decide

/-- The decoder's loop over at most five characters stays below 2^30 (R155: DOUT[31:30] = 0). -/
theorem decodeChars_ok_lt {lim : Word} {l : List Byte} {pos : Nat} {acc v : Word} (hlen : l.length ≤ 5)
    (hacc : acc.toNat < 2 ^ 30) (h : decodeChars lim pos acc l = .ok v) : v.toNat < 2 ^ 30 := by
  induction l generalizing pos acc with
  | nil => exact Except.ok.inj h ▸ hacc
  | cons c rest ih =>
    cases hc : REV c with
    | none => simp [decodeChars, hc] at h
    | some r =>
      simp only [decodeChars, hc] at h
      rw [List.length_cons] at hlen
      refine ih (by omega) ?_ h
      rw [BitVec.toNat_or]
      exact Nat.or_lt_two_pow hacc (weighed_index_lt r (by omega))

theorem length_stringOperand (o : Operands) (w : Width) : (stringOperand o w).length ≤ 5 :=
  (List.length_take_le _ _).trans (digits_le_five w)

theorem decodeN_form (w : Width) (o : Operands) : CommitForm (decodeN w o) := by
  have hlen := length_stringOperand o w
  unfold decodeN
  split
  · exact commitForm_error_at_zero _ _ _
  · split
    · next e he =>
      obtain ⟨before, c, after, hl, -, -, rfl⟩ := decodeChars_error he
      rw [hl, List.length_append, List.length_cons] at hlen
      refine .error _ (BitVec.le_def.2 ?_) fun _ => rfl
      simp only [BitVec.toNat_ofNat]
      omega
    · next acc hok =>
      exact .value _ (BitVec.lt_def.2 (decodeChars_ok_lt hlen (by decide) hok))

theorem commandResults_form (i : Instr) (o : Operands) : CommitForm (commandResults i o) := by
  cases i with
  | encode1 | encode2 | encode3 | encode4 | encode5 => exact encodeN_form _ o
  | decode1 | decode2 | decode3 | decode4 | decode5 => exact decodeN_form _ o
  | symbolAt => exact symbolAtCmd_form o
  | indexOf => exact indexOfCmd_form o

/-- Every word written to CMD, legal or not, commits results of one of the three forms. -/
theorem wordResults_form (v : Word) (o : Operands) : CommitForm (wordResults v o) := by
  unfold wordResults
  cases decodeCmd v with
  | ok i => exact commandResults_form i o
  | error e => cases e <;> exact commitForm_error_at_zero _ _ _

theorem errCode_range (k : ErrKind) : 1#3 ≤ k.code ∧ k.code ≤ 5#3 := by
  cases k <;> decide

/-- Position `k` of a string of at most five symbols committed to SOUT. -/
theorem getD_toList_ofList {l : List Byte} (hlen : l.length ≤ 5) (k : Nat) :
    (Chars.ofList l).toList.getD k 0#8 = l.getD k 0#8 := by
  rcases k with _ | _ | _ | _ | _ | k
  case succ.succ.succ.succ.succ =>
    have hk : l.length ≤ k + 5 := by omega
    simp [Chars.toList, hk]
  all_goals rfl

/-- What a command commits is legal (R25, R26, R32 to R37). -/
theorem CommitForm.legal {r : Results} (h : CommitForm r) : LegalResults r := by
  cases h with
  | value dout hlt =>
    refine .inr (.inl ⟨rfl, rfl, rfl, rfl, rfl, by simp [commitOK], hlt, .inr rfl, fun k _ => ⟨?_, ?_⟩⟩)
    · simp [commitOK]
    · rintro -
      exact getD_toList_ofList (l := []) (by decide) k
  | string l hlen hsym =>
    have hn : (BitVec.ofNat 3 l.length).toNat = l.length := by
      rw [BitVec.toNat_ofNat]
      omega
    refine .inr (.inl ⟨rfl, rfl, rfl, rfl, rfl, ?_, (by decide : 0#32 < 0x40000000#32), .inl rfl, fun k _ => ?_⟩)
    · exact BitVec.le_def.2 (hn.trans_le hlen)
    · simp only [commitOK, hn, List.take_length, getD_toList_ofList hlen]
      constructor
      · intro hk
        rw [List.getD_eq_getElem _ _ hk]
        exact hsym _ (List.getElem_mem hk)
      · exact List.getD_eq_default _ _
  | error e hpos hkind =>
    obtain ⟨h1, h5⟩ := errCode_range e.kind
    exact .inr (.inr ⟨rfl, h1, h5, rfl, rfl, rfl, hpos, fun hp => by
      simp [raiseError, hkind hp, ErrKind.code]⟩)

/-- A command sets RVALID with ERRCODE 0, or clears it with a code in 1..5 (R27, R171). -/
theorem CommitForm.flags {r : Results} (h : CommitForm r) :
    (r.rvalid = true ∧ r.errCode = 0#3) ∨ (r.rvalid = false ∧ 1#3 ≤ r.errCode ∧ r.errCode ≤ 5#3) := by
  cases h with
  | value dout hlt => exact .inl ⟨rfl, rfl⟩
  | string l hlen hsym => exact .inl ⟨rfl, rfl⟩
  | error e hpos hkind => exact .inr ⟨rfl, errCode_range e.kind⟩

theorem CommitForm.errCode_le_five {r : Results} (h : CommitForm r) : r.errCode ≤ 5#3 :=
  (legalResults_inRange h.legal).1

/-! ### What a step does to the storage -/

theorem windowOffset_some {p : Params} {addr o : Nat} (h : windowOffset p addr = some o) : addr = p.base + o := by
  unfold windowOffset at h
  split at h
  · have := Option.some.inj h
    omega
  · cases h

theorem regAt_some {o : Nat} {r : Reg} (h : regAt o = some r) : r.offset = o :=
  beq_iff_eq.1 (List.find?_some (p := fun q : Reg => q.offset == o) h)

/-- An access that passes the checks reaches the register at its offset. -/
theorem admitAccess_ok_offset {a : Access} {o : Nat} {r : Reg} (h : admitAccess a o = .ok r) : o = r.offset := by
  unfold admitAccess at h
  split at h
  · cases h
  · split at h
    · cases h
    · split at h
      · cases h
      · next q hq =>
        rw [← Except.ok.inj h, regAt_some hq]

/-- What a step from `s` to `t` can do to the storage and to the reset input, and the event that does it (R21). -/
inductive StorageEffect (s t : State) : Prop
  | kept (ho : t.operands = s.operands) (hr : t.results = s.results) (hp : t.resetPhase = s.resetPhase)
  | command {a : Access} {v : Word} {rest : List Event} (hq : s.pending = .access a :: rest)
      (hk : a.kind = .write v) (ha : a.addr = s.params.base) (hs : s.resetPhase ≠ .asserted)
      (hp : t.resetPhase = s.resetPhase) (ho : t.operands = s.operands) (hr : t.results = wordResults v s.operands)
  | operand {a : Access} {v : Word} {r : Reg} {rest : List Event} (hq : s.pending = .access a :: rest)
      (hk : a.kind = .write v) (ha : a.addr = s.params.base + r.offset)
      (hreg : r = .din ∨ r = .slen ∨ r = .sin0 ∨ r = .sin1) (hs : s.resetPhase ≠ .asserted)
      (hp : t.resetPhase = s.resetPhase) (hr : t.results = s.results)
  | reset {e : Event} {rest : List Event} (hq : s.pending = e :: rest) (he : e = .resetAssert ∨ e = .resetRelease)
      (ho : t.operands = Operands.reset) (hr : t.results = Results.reset)
  | powerUp {rest : List Event} (hq : s.pending = .powerUp :: rest) (hp : t.resetPhase = .unreset)
      (hr : t.results = drawnResults (s.draws + 7))

/-- An access that is next to arrive keeps the storage, or is a write of CMD or of an operand register. -/
theorem hostAccess_effect {s t : State} {a : Access} {rest : List Event} (hq : s.pending = .access a :: rest)
    (hs : s.resetPhase ≠ .asserted) (h : hostAccess { s with pending := rest } a = .next t) : StorageEffect s t := by
  obtain ⟨o, ho, hr | ⟨c, -, rfl⟩⟩ := hostAccess_next h
  · have haddr : a.addr = s.params.base + o := windowOffset_some ho
    obtain ⟨r, hadm, ⟨-, rfl⟩ | ⟨v, hk, hw⟩⟩ := respond_next hr
    · exact .kept rfl rfl rfl
    · rw [admitAccess_ok_offset hadm] at haddr
      rcases memWrite_next hw with ⟨rfl, rfl⟩ | ⟨rfl, rfl⟩ | ⟨rfl, rfl⟩ | ⟨rfl, rfl⟩ | ⟨rfl, rfl⟩
      · exact .command hq hk haddr hs rfl rfl rfl
      · exact .operand hq hk haddr (by simp) hs rfl rfl
      · exact .operand hq hk haddr (by simp) hs rfl rfl
      · exact .operand hq hk haddr (by simp) hs rfl rfl
      · exact .operand hq hk haddr (by simp) hs rfl rfl
  · exact .kept rfl rfl rfl

/-- Every step has one of the effects of `StorageEffect` on the storage. -/
theorem step_effect {s t : State} (h : step s = .next t) : StorageEffect s t := by
  rcases step_next h with ⟨-, rfl⟩ | ⟨e, rest, hq, h⟩
  · exact .kept rfl rfl rfl
  · rcases arrive_next h with ⟨a, rfl, hs, h⟩ | ⟨rfl, rfl⟩ | ⟨rfl, -, rfl⟩ | ⟨-, -, rfl⟩ | ⟨rfl, rfl⟩
    · exact hostAccess_effect hq hs h
    · exact .reset hq (.inl rfl) rfl rfl
    · exact .reset hq (.inr rfl) rfl rfl
    · exact .kept rfl rfl rfl
    · by_cases hs : s.resetPhase = .asserted
      · rw [powerUp_of_asserted { s with pending := rest } hs]
        exact .kept rfl rfl rfl
      · rw [powerUp_of_not_asserted { s with pending := rest } hs]
        exact .powerUp hq rfl rfl

/-- No step changes the parameters (R6). -/
theorem step_params {s t : State} (h : step s = .next t) : t.params = s.params := by
  rcases step_next h with ⟨-, rfl⟩ | ⟨e, rest, -, h⟩
  · rfl
  · rcases arrive_next h with ⟨a, -, -, h⟩ | ⟨-, rfl⟩ | ⟨-, -, rfl⟩ | ⟨-, -, rfl⟩ | ⟨-, rfl⟩
    · obtain ⟨o, -, hr | ⟨c, -, rfl⟩⟩ := hostAccess_next h
      · obtain ⟨-, -, -, hparams, -⟩ := respond_frame hr
        exact hparams
      · rfl
    · rfl
    · rfl
    · rfl
    · exact powerUp_params _

/-! ### The invariant -/

theorem legalResults_reset : LegalResults Results.reset := .inl rfl

/-- Storage at its reset values meets the invariant, wherever the reset input stands. -/
theorem inv_of_reset_storage {t : State} (ho : t.operands = Operands.reset) (hr : t.results = Results.reset) :
    Inv t :=
  ⟨hr ▸ legalResults_inRange legalResults_reset, fun _ => hr ▸ legalResults_reset, fun _ => ⟨ho, hr⟩⟩

/-- While reset is not asserted, legal results suffice for the invariant. -/
theorem inv_of_legal {t : State} (hp : t.resetPhase ≠ .asserted) (hl : LegalResults t.results) : Inv t :=
  ⟨legalResults_inRange hl, fun _ => hl, fun h => absurd h hp⟩

/-- Settles O46: each effect of a step on the storage keeps the invariant. -/
theorem everyStepKeepsTheInvariant : Obligations.EveryStepKeepsTheInvariant := by
  intro s t hinv h
  obtain ⟨hrange, hlegal, hasserted⟩ := hinv
  cases step_effect h with
  | kept ho hr hp =>
    refine ⟨hr ▸ hrange, ?_, ?_⟩
    · rw [hp, hr]
      exact hlegal
    · rw [hp, hr, ho]
      exact hasserted
  | command hq hk ha hs hp ho hr => exact inv_of_legal (hp ▸ hs) (hr ▸ (wordResults_form _ _).legal)
  | operand hq hk ha hreg hs hp hr =>
    refine ⟨hr ▸ hrange, ?_, fun h => absurd (hp ▸ h) hs⟩
    rw [hp, hr]
    exact hlegal
  | reset hq he ho hr => exact inv_of_reset_storage ho hr
  | powerUp hq hp hr =>
    exact ⟨hr ▸ drawnResults_inRange _, fun h => absurd hp h, fun h => by simp [hp] at h⟩

/-- Settles O47: the storage of the reset state is that of R43. -/
theorem invariantHoldsAtReset : Obligations.InvariantHoldsAtReset := inv_of_reset_storage rfl rfl

/-- Settles O45: of the effects of a step, only the named events change the registers. -/
theorem onlyItsWritersChangeARegister : Obligations.OnlyItsWritersChangeARegister := by
  intro s t h
  refine ⟨fun hne => ?_, fun hne => ?_, step_params h⟩
  · cases step_effect h with
    | kept ho hr hp => exact absurd hr hne
    | command hq hk ha => exact ⟨_, _, hq, .inl ⟨_, _, rfl, hk, ha⟩⟩
    | operand hq hk ha hreg hs hp hr => exact absurd hr hne
    | reset hq he => exact ⟨_, _, hq, .inr (he.imp_right .inl)⟩
    | powerUp hq => exact ⟨_, _, hq, .inr (.inr (.inr rfl))⟩
  · cases step_effect h with
    | kept ho hr hp => exact absurd ho hne
    | command hq hk ha hs hp ho hr => exact absurd ho hne
    | operand hq hk ha hreg => exact ⟨_, _, hq, .inl ⟨_, _, _, rfl, hk, ha, hreg⟩⟩
    | reset hq he => exact ⟨_, _, hq, .inr (he.imp_right .inl)⟩
    | powerUp hq => exact ⟨_, _, hq, .inr (.inr (.inr rfl))⟩

/-- Settles O48: a step that writes ERRCODE writes what a command, reset or a power-up draw leaves there. -/
theorem errorCodesSixAndSevenNeverWritten : Obligations.ErrorCodesSixAndSevenNeverWritten := by
  refine ⟨fun s t h => ?_, fun s v => ⟨_, execute_eq_commit s v, (wordResults_form v _).errCode_le_five⟩, by decide⟩
  cases step_effect h with
  | kept ho hr hp => exact .inr (congrArg _ hr)
  | command hq hk ha hs hp ho hr => exact .inl (hr ▸ (wordResults_form _ _).errCode_le_five)
  | operand hq hk ha hreg hs hp hr => exact .inr (congrArg _ hr)
  | reset hq he ho hr => exact .inl (hr ▸ by decide)
  | powerUp hq hp hr => exact .inl (hr ▸ (drawnResults_inRange _).1)

/-! ### STATUS and the byte lanes -/

theorem toNat_statusWord (r : Results) : (statusWord r).toNat = 256 * r.rvalid.toNat + r.errCode.toNat := by
  have hall : ∀ (b : Bool) (c : BitVec 3),
      ((BitVec.ofBool b ++ 0#5 ++ c).setWidth 32).toNat = 256 * b.toNat + c.toNat := by decide
  exact hall r.rvalid r.errCode

/-- Settles O32: the flags a command leaves fix the STATUS word. -/
theorem statusWordAfterCommand : Obligations.StatusWordAfterCommand := by
  intro s v
  refine ⟨_, execute_eq_commit s v, toNat_statusWord _, ?_⟩
  have hnat := toNat_statusWord (wordResults v s.operands)
  simp only [memRead, commit_results]
  rcases (wordResults_form v s.operands).flags with ⟨hv, hc⟩ | ⟨hv, h1, h5⟩
  · have hst : statusWord (wordResults v s.operands) = 0x100#32 := by
      apply BitVec.eq_of_toNat_eq
      simpa [hv, hc] using hnat
    simp [hst, hv]
  · have hst : (statusWord (wordResults v s.operands)).toNat = (wordResults v s.operands).errCode.toNat := by
      simpa [hv] using hnat
    have hn1 : 1 ≤ (wordResults v s.operands).errCode.toNat := h1
    have hn5 : (wordResults v s.operands).errCode.toNat ≤ 5 := h5
    refine ⟨.inr ⟨by omega, by omega, hv⟩, fun h => ?_, fun h => by simp [hv] at h⟩
    rw [h] at hst
    simp only [BitVec.toNat_ofNat] at hst
    omega

/-- Byte lane `k` of a word of four bytes (R62). -/
theorem lane_wordOfLanes (b0 b1 b2 b3 : Byte) {k : Nat} (hk : k < 4) :
    lane (wordOfLanes b0 b1 b2 b3) k = [b0, b1, b2, b3].getD k 0#8 := by
  apply BitVec.eq_of_getLsbD_eq
  intro i hi
  simp only [lane, wordOfLanes, BitVec.getLsbD_extractLsb', BitVec.getLsbD_cast, BitVec.getLsbD_append, hi]
  interval_cases k
  · simp [hi]
  · simp [hi]
  · simp [hi, show ¬ 16 + i < 8 by omega, show 16 + i - 8 = 8 + i by omega]
  · simp [hi, show ¬ 24 + i < 8 by omega, show 24 + i - 8 = 16 + i by omega, show ¬ 16 + i < 8 by omega,
      show 16 + i - 8 = 8 + i by omega]

/-- A word is its four byte lanes. -/
theorem wordOfLanes_lane (v : Word) : wordOfLanes (lane v 0) (lane v 1) (lane v 2) (lane v 3) = v := by
  apply BitVec.eq_of_getLsbD_eq
  intro i hi
  simp only [lane, wordOfLanes, BitVec.getLsbD_extractLsb', BitVec.getLsbD_cast, BitVec.getLsbD_append]
  split_ifs with h0 h1 h2
  · simp [h0]
  · simp [h1, show 8 + (i - 8) = i by omega]
  · simp [h2, show 16 + (i - 8 - 8) = i by omega]
  · simp [show 24 + (i - 8 - 8 - 8) = i by omega, show i - 8 - 8 - 8 < 8 by omega]

theorem lane_word0 (c : Chars) {k : Nat} (hk : k < 4) : lane c.word0 k = c.toList.getD k 0#8 := by
  rw [Chars.word0, lane_wordOfLanes _ _ _ _ hk]
  interval_cases k <;> rfl

@[simp] theorem word0_setWord0 (c : Chars) (v : Word) : (c.setWord0 v).word0 = v := wordOfLanes_lane v

/-- A byte lane is eight bits: SIN1 reads back the low byte alone (R31). -/
@[simp] theorem word1_setWord1 (c : Chars) (v : Word) : (c.setWord1 v).word1 = v &&& 0xFF#32 := by
  apply BitVec.eq_of_toNat_eq
  have hmask := Nat.and_two_pow_sub_one_eq_mod v.toNat 8
  have hlow : (lane v 0).toNat = v.toNat % 2 ^ 8 := by simp [lane]
  rw [Chars.word1, BitVec.toNat_setWidth_of_le (by decide), BitVec.toNat_and]
  exact hlow.trans hmask.symm

@[simp] theorem toNat_word1 (c : Chars) : c.word1.toNat = c.c4.toNat :=
  BitVec.toNat_setWidth_of_le (by decide)

/-- Settles O39: reading SIN and SOUT through their byte lanes gives the characters back. -/
theorem charactersSitInByteLanes : Obligations.CharactersSitInByteLanes := fun s =>
  ⟨fun _ hk => ⟨lane_word0 s.operands.sin hk, lane_word0 s.results.sout hk⟩,
    toNat_word1 s.operands.sin, toNat_word1 s.results.sout⟩

/-- Settles O38: one write per operand register, and no register shares its storage. -/
theorem operandRegistersReadBack : Obligations.OperandRegistersReadBack := by
  rintro s v r (rfl | rfl | rfl | rfl)
  · refine ⟨_, rfl, rfl, fun q hq => ?_, rfl, rfl, rfl⟩
    cases q with
    | din => exact absurd rfl hq
    | _ => rfl
  · refine ⟨_, rfl, rfl, fun q hq => ?_, rfl, rfl, rfl⟩
    cases q with
    | slen => exact absurd rfl hq
    | _ => rfl
  · refine ⟨_, rfl, word0_setWord0 _ v, fun q hq => ?_, rfl, rfl, rfl⟩
    cases q with
    | sin0 => exact absurd rfl hq
    | _ => rfl
  · refine ⟨_, rfl, word1_setWord1 _ v, fun q hq => ?_, rfl, rfl, rfl⟩
    cases q with
    | sin1 => exact absurd rfl hq
    | _ => rfl

/-! ### Reset and power -/

/-- Asserting reset, or releasing it while it is asserted, applies it (R200). -/
theorem step_applies_reset {s : State} {rest : List Event}
    (h : s.pending = .resetAssert :: rest ∨ (s.pending = .resetRelease :: rest ∧ s.resetPhase = .asserted)) :
    ∃ phase, step s = .next ({ s with pending := rest }.applyReset phase) ∧
      (s.pending = .resetAssert :: rest → phase = .asserted) ∧
      (s.pending = .resetRelease :: rest → phase = .released) := by
  rcases h with hq | ⟨hq, hp⟩
  · exact ⟨.asserted, step_cons hq, fun _ => rfl, fun h => by simp [hq] at h⟩
  · refine ⟨.released, ?_, fun h => by simp [hq] at h, fun _ => rfl⟩
    rw [step_cons hq]
    simp only [arrive, hp]

theorem statusWord_reset : statusWord Results.reset = 0#32 := by decide

/-- Settles O50: either step applies reset, which zeroes the storage and keeps the rest. -/
theorem resetZeroesTheStorage : Obligations.ResetZeroesTheStorage := by
  intro s rest h
  obtain ⟨phase, hstep, hassert, hrelease⟩ := step_applies_reset h
  exact ⟨_, hstep, rfl, rfl, rfl, rfl, rfl, rfl, rfl, rfl, rfl, rfl, rfl, statusWord_reset, rfl, rfl, rfl,
    rfl, rfl, fun _ => rfl, rfl, hassert, hrelease⟩

/-- The sixteen ALPHABET words are those of R115. -/
theorem alphabetWord_eq : ∀ j : Fin 16, alphabetWord j =
    [0x33323130#32, 0x37363534#32, 0x42413938#32, 0x46454443#32, 0x4A494847#32, 0x4E4D4C4B#32, 0x5251504F#32,
     0x56555453#32, 0x5A595857#32, 0x64636261#32, 0x68676665#32, 0x6C6B6A69#32, 0x706F6E6D#32, 0x74737271#32,
     0x78777675#32, 0x5F2D7A79#32].getD j.val 0#32 := by decide

/-- Settles O51: the storage registers of the reset state are 0 and the others are the constants of R38 and R115. -/
theorem resetStateIsZero : Obligations.ResetStateIsZero := by
  refine ⟨⟨rfl, rfl, rfl⟩, fun r => ?_, rfl, rfl⟩
  cases r with
  | alphabet j => exact alphabetWord_eq j
  | _ => rfl

/-- The step of a power-up that is not under an asserted reset (R45). -/
theorem step_powerUp {s : State} {rest : List Event} (hq : s.pending = .powerUp :: rest)
    (hs : s.resetPhase ≠ .asserted) :
    step s = .next { s with operands := drawnOperands s.draws, results := drawnResults (s.draws + 7),
                            resetPhase := .unreset, draws := s.draws + drawsPerPowerUp, pending := rest } := by
  rw [step_cons hq, arrive, powerUp_of_not_asserted { s with pending := rest } hs]

/-- Settles O54: the drawn storage depends on the draw counter alone. -/
theorem powerUpForgetsTheStorage : Obligations.PowerUpForgetsTheStorage := by
  intro s s' rest hq hq' hs hs' hd
  refine ⟨_, _, step_powerUp hq hs, step_powerUp hq' hs', congrArg drawnOperands hd, ?_, rfl, rfl, rfl, rfl, rfl, rfl,
    rfl, rfl, rfl, rfl, rfl, rfl, rfl⟩
  exact congrArg (fun n => drawnResults (n + 7)) hd

end Sys2Proof.Proofs

/-! PROOFS. The register window (20_memory.md): what an arriving access of the window does, register by register, and
the obligations on the map, on reads, writes and refusals, and on what the block does not decode. -/

namespace Sys2Proof.Proofs

open Sys2Proof.Machine Sys2Proof.Safety Sys2Proof.Laws Sys2Proof.Claims

/-! ### The register map -/

/-- The map finds each register at its own offset. -/
theorem regAt_offset (r : Reg) : regAt r.offset = some r := by
  cases r with
  | alphabet j =>
    have hall : ∀ j : Fin 16, regAt (Reg.alphabet j).offset = some (.alphabet j) := by decide
    exact hall j
  | _ => rfl

theorem regAt_eq_some_iff (r : Reg) (o : Nat) : regAt o = some r ↔ o = r.offset :=
  ⟨fun h => (regAt_some h).symm, fun h => h ▸ regAt_offset r⟩

/-- Every register sits at an aligned offset of one of the two ranges (R61). -/
theorem offset_mem_ranges (r : Reg) : r.offset % 4 = 0 ∧ (r.offset ≤ 0x34 ∨ 0x40 ≤ r.offset ∧ r.offset ≤ 0x7C) := by
  cases r with
  | alphabet j => simp only [Reg.offset]; omega
  | _ => decide

/-- No aligned offset of the two ranges is left without a register. -/
theorem regAt_ne_none_of_mem_ranges {o : Nat} (ho : o % 4 = 0) (h : o ≤ 0x34 ∨ 0x40 ≤ o ∧ o ≤ 0x7C) :
    regAt o ≠ none := by
  have hall : ∀ k < 32, (4 * k ≤ 0x34 ∨ 0x40 ≤ 4 * k) → regAt (4 * k) ≠ none := by decide
  obtain ⟨k, rfl⟩ := Nat.dvd_of_mod_eq_zero ho
  exact hall k (by omega) (by omega)

theorem regAt_ne_none_iff (o : Nat) : regAt o ≠ none ↔ o % 4 = 0 ∧ (o ≤ 0x34 ∨ 0x40 ≤ o ∧ o ≤ 0x7C) := by
  refine ⟨fun h => ?_, fun ⟨ho, hrange⟩ => regAt_ne_none_of_mem_ranges ho hrange⟩
  obtain ⟨r, hr⟩ := Option.ne_none_iff_exists'.1 h
  exact regAt_some hr ▸ offset_mem_ranges r

/-- Settles O40: each register is found at its own offset, and the offsets fill the two ranges. -/
theorem registerMapOneToOne : Obligations.RegisterMapOneToOne := ⟨regAt_eq_some_iff, regAt_ne_none_iff⟩

/-! ### What a read returns -/

theorem toNat_append_eq_add {m n : Nat} (x : BitVec m) (y : BitVec n) :
    (x ++ y).toNat = x.toNat * 2 ^ n + y.toNat := by
  rw [BitVec.toNat_append, ← Nat.shiftLeft_add_eq_or_of_lt y.isLt, Nat.shiftLeft_eq]

/-- Four byte lanes make the word with those little-endian digits (R62). -/
theorem wordOfLanes_eq_fourBytes (b0 b1 b2 b3 : Byte) : wordOfLanes b0 b1 b2 b3 = fourBytes b0 b1 b2 b3 := by
  apply BitVec.eq_of_toNat_eq
  simp only [wordOfLanes, fourBytes, BitVec.toNat_cast, toNat_append_eq_add, BitVec.toNat_ofNat]
  omega

theorem statusWord_eq_ofNat (r : Results) :
    statusWord r = BitVec.ofNat 32 (256 * r.rvalid.toNat + r.errCode.toNat) := by
  rw [← toNat_statusWord, BitVec.ofNat_toNat, BitVec.setWidth_eq]

theorem readValue_of_alphabet (s : State) {o : Nat} (h : 0x40 ≤ o ∧ o ≤ 0x7C ∧ o % 4 = 0) :
    readValue s o = some (fourBytes (SYM (BitVec.ofNat 6 (o - 0x40))) (SYM (BitVec.ofNat 6 (o - 0x40 + 1)))
      (SYM (BitVec.ofNat 6 (o - 0x40 + 2))) (SYM (BitVec.ofNat 6 (o - 0x40 + 3)))) := by
  unfold readValue
  iterate 14 rw [if_neg (by omega)]
  rw [if_pos h]

/-- MemRead of each register is the value that the spec's list gives for its offset (R69). -/
theorem readValue_offset (s : State) (r : Reg) : readValue s r.offset = some (memRead s r) := by
  cases r with
  | status => exact congrArg some (statusWord_eq_ofNat s.results).symm
  | sin0 => exact congrArg some (wordOfLanes_eq_fourBytes _ _ _ _).symm
  | sout0 => exact congrArg some (wordOfLanes_eq_fourBytes _ _ _ _).symm
  | alphabet j =>
    have hj : (Reg.alphabet j).offset - 0x40 = 4 * j.val := Nat.add_sub_cancel_left _ _
    rw [readValue_of_alphabet s (by simp only [Reg.offset]; omega), hj, ← wordOfLanes_eq_fourBytes]
    rfl
  | sin1 | soutLen | sout1 | errPos => exact congrArg some (BitVec.ofNat_toNat 32 _)
  | _ => rfl

/-- Where no register is mapped the spec's list gives no value (R66). -/
theorem readValue_of_unmapped (s : State) {o : Nat} (ho : o % 4 = 0) (h : regAt o = none) : readValue s o = none := by
  have hout : ¬ (o ≤ 0x34 ∨ 0x40 ≤ o ∧ o ≤ 0x7C) := fun hr => regAt_ne_none_of_mem_ranges ho hr h
  unfold readValue
  iterate 15 rw [if_neg (by omega)]

/-! ### What a write does -/

/-- A write of a register that no host may write is a bus error (R67). -/
theorem memWrite_readOnly (s : State) (v : Word) {r : Reg} (h : writable r = false) :
    memWrite s v r = .error .readOnly := by
  cases r with
  | cmd | din | slen | sin0 | sin1 => cases h
  | _ => rfl

/-- The writable registers sit at 0x00, 0x08, 0x0C, 0x10 and 0x14, and no other does (R23). -/
theorem offset_ne_of_readOnly {r : Reg} (h : writable r = false) :
    r.offset ≠ 0x00 ∧ r.offset ≠ 0x08 ∧ r.offset ≠ 0x0C ∧ r.offset ≠ 0x10 ∧ r.offset ≠ 0x14 := by
  cases r with
  | cmd | din | slen | sin0 | sin1 => cases h
  | alphabet j => simp only [Reg.offset]; omega
  | _ => decide

/-- Settles O31: a command reads no result register, and an operand register takes the same value again. -/
theorem repeatedWriteChangesNothing : Obligations.RepeatedWriteChangesNothing := by
  intro s t r v h
  rcases memWrite_next h with ⟨rfl, rfl⟩ | ⟨rfl, rfl⟩ | ⟨rfl, rfl⟩ | ⟨rfl, rfl⟩ | ⟨rfl, rfl⟩
  · exact congrArg Except.ok (execute_eq_commit (s.commit _) v)
  · rfl
  · rfl
  · rfl
  · rfl

/-! ### What a refused access does -/

theorem othersOf_eq_filter (h : Nat) (l : List Event) : othersOf h l = l.filter fun e => !e.issuedBy h := by
  induction l with
  | nil => rfl
  | cons e rest ih =>
    cases e with
    | access a => by_cases ha : a.host = h <;> simp [othersOf, List.filter_cons, ha, ih]
    | _ => simp [othersOf, ih]

/-- The bus error is the end of the issuing host's program and nothing else (R177, R178). -/
theorem busError_eq_programFaulted (s : State) (a : Access) (c : BusErrorCause) (rest : List Event) :
    { s with pending := rest }.busError a c = programFaulted s a.host c (refusedData a.kind) rest := by
  simp only [State.busError, programFaulted, othersOf_eq_filter]

theorem refusedData_eq_ite (k : AccessKind) : refusedData k = if k = .read then some 0#32 else none := by
  cases k <;> rfl

/-- An arriving access of the window that fails a check ends the program that issued it. -/
theorem step_of_not_admitted {s : State} {a : Access} {rest : List Event} {c : BusErrorCause}
    (hb : s.params.base ≤ a.addr) (he : a.addr < s.params.base + 256) (h : Arrives s (.access a) rest)
    (hc : admitAccess a (a.addr - s.params.base) = .error c) :
    step s = .next (programFaulted s a.host c (refusedData a.kind) rest) := by
  have hr : respond { s with pending := rest } a (a.addr - s.params.base) = .error c := by
    simp only [respond, hc]
  rw [step_access h.1 h.2, hostAccess_window (s := { s with pending := rest }) hb he, hr]
  exact congrArg Host.Outcome.next (busError_eq_programFaulted s a c rest)

/-- The width check comes first (R64). -/
theorem admitAccess_partial {a : Access} (o : Nat) (h : a.size ≠ 4 ∨ a.byteEnables ≠ 0xF#4) :
    admitAccess a o = .error .width := if_pos h

/-- The alignment check comes second (R65). -/
theorem admitAccess_misaligned {a : Access} {o : Nat} (hs : a.size = 4) (hb : a.byteEnables = 0xF#4) (ho : o % 4 ≠ 0) :
    admitAccess a o = .error .misaligned := by
  simp [admitAccess, hs, hb, ho]

/-- The map comes last (R66). -/
theorem admitAccess_unmapped {a : Access} {o : Nat} (hs : a.size = 4) (hb : a.byteEnables = 0xF#4) (ho : o % 4 = 0)
    (h : regAt o = none) : admitAccess a o = .error .unmapped := by
  simp [admitAccess, hs, hb, ho, h]

/-- Settles O35: such an access fails the first check, or passes it and fails the second. -/
theorem narrowOrMisalignedAccessRefused : Obligations.NarrowOrMisalignedAccessRefused := by
  intro s a rest hb he h
  rw [← refusedData_eq_ite]
  exact ⟨fun hp => step_of_not_admitted hb he h (admitAccess_partial _ hp),
    fun hs hbe ho => step_of_not_admitted hb he h (admitAccess_misaligned hs hbe ho)⟩

/-- Settles O37: the address has no offset in the window. -/
theorem outsideWindowRefused : Obligations.OutsideWindowRefused := by
  intro s a rest hout h
  have ho : windowOffset s.params a.addr = none := if_neg (by omega)
  rw [step_access h.1 h.2]
  simp only [hostAccess, ho]

/-! ### The admitted accesses of the window -/

/-- An arriving access at an aligned offset without a register ends the program that issued it (R66). -/
theorem step_unmapped {s : State} {h o : Nat} {k : AccessKind} {rest : List Event} (hlt : o < 256) (ho : o % 4 = 0)
    (hmap : regAt o = none) (harr : Arrives s (.access (fullAccess s h k o)) rest) :
    step s = .next (programFaulted s h .unmapped (refusedData k) rest) := by
  refine step_of_not_admitted (Nat.le_add_right _ _) (Nat.add_lt_add_left hlt _) harr ?_
  rw [show (fullAccess s h k o).addr - s.params.base = o from Nat.add_sub_cancel_left _ _]
  exact admitAccess_unmapped rfl rfl ho hmap

/-- An arriving read of a register appends its value to the reads (R69). -/
theorem step_read {s : State} {h : Nat} {r : Reg} {rest : List Event}
    (harr : Arrives s (.access (fullAccess s h .read r.offset)) rest) :
    step s = .next { s with pending := rest, reads := s.reads ++ [memRead s r] } :=
  (step_access harr.1 harr.2).trans (hostAccess_read { s with pending := rest } r h)

/-- An arriving write of a register that MemWrite performs (R70). -/
theorem step_write {s : State} {h : Nat} {v : Word} {r : Reg} {rest : List Event}
    {out : Host.Outcome State Fault Refusal} (harr : Arrives s (.access (fullAccess s h (.write v) r.offset)) rest)
    (hw : memWrite { s with pending := rest } v r = .ok out) : step s = out := by
  have hacc := (step_access harr.1 harr.2).trans (hostAccess_write { s with pending := rest } r v h)
  rwa [hw] at hacc

/-- An arriving write of a read-only register ends the program that issued it (R67). -/
theorem step_write_readOnly {s : State} {h : Nat} {v : Word} {r : Reg} {rest : List Event} (hr : writable r = false)
    (harr : Arrives s (.access (fullAccess s h (.write v) r.offset)) rest) :
    step s = .next (programFaulted s h .readOnly none rest) := by
  have hacc := (step_access harr.1 harr.2).trans (hostAccess_write { s with pending := rest } r v h)
  rw [memWrite_readOnly _ v hr] at hacc
  exact hacc.trans (congrArg Host.Outcome.next (busError_eq_programFaulted s _ .readOnly rest))

/-- Settles O33: the read of a register, or of no register. -/
theorem readOfEveryAlignedOffset : Obligations.ReadOfEveryAlignedOffset := by
  intro s h o rest hlt ho harr
  cases hmap : regAt o with
  | none =>
    rw [readValue_of_unmapped s ho hmap]
    exact step_unmapped hlt ho hmap harr
  | some r =>
    obtain rfl := regAt_some hmap
    rw [readValue_offset]
    exact step_read harr

/-- Settles O34: the write of a register, or of no register; the read-only registers fill the two ranges of offsets but
for the five that a host may write. -/
theorem writeOfEveryAlignedOffset : Obligations.WriteOfEveryAlignedOffset := by
  intro s h o v rest hlt ho harr
  cases hmap : regAt o with
  | none =>
    have hout : ¬ (o ≤ 0x34 ∨ 0x40 ≤ o ∧ o ≤ 0x7C) := fun hr => regAt_ne_none_of_mem_ranges ho hr hmap
    iterate 6 rw [if_neg (by omega)]
    exact step_unmapped hlt ho hmap harr
  | some r =>
    obtain rfl := regAt_some hmap
    cases hr : writable r with
    | false =>
      obtain ⟨h0, h8, hC, h10, h14⟩ := offset_ne_of_readOnly hr
      rw [if_neg h0, if_neg h8, if_neg hC, if_neg h10, if_neg h14, if_pos (offset_mem_ranges r).2]
      exact step_write_readOnly hr harr
    | true =>
      cases r with
      | cmd => exact step_write (r := .cmd) harr rfl
      | din => exact step_write (r := .din) harr rfl
      | slen => exact step_write (r := .slen) harr rfl
      | sin0 => exact step_write (r := .sin0) harr rfl
      | sin1 => exact step_write (r := .sin1) harr rfl
      | _ => cases hr

/-! ### Commands -/

theorem execute_of_decodeCmd {v : Word} {i : Instr} (s : State) (h : decodeCmd v = .ok i) : execute s v = exec i s := by
  simp only [execute, h]

/-- Settles O42: the write of CMD is Execute of its word. -/
theorem stepRunsTheDecodedCommand : Obligations.StepRunsTheDecodedCommand := fun s _ _ _ rest harr hi =>
  (step_write (r := .cmd) harr rfl).trans (execute_of_decodeCmd { s with pending := rest } hi)

theorem decodeCmd_encode (i : Instr) : decodeCmd (encode i) = .ok i := by
  cases i <;> rfl

/-- A word of 32 bits is its own table word (R90). -/
theorem tableWord_toNat (w : Word) : tableWord 32 w.toNat = w := by
  rw [tableWord, Nat.mod_eq_of_lt w.isLt, BitVec.ofNat_toNat, BitVec.setWidth_eq]

theorem ready_eq_ite (p : ResetPhase) : p.ready = if p = .asserted then .released else p := by
  cases p <;> rfl

theorem ready_ne_asserted (p : ResetPhase) : p.ready ≠ .asserted := by
  cases p <;> decide

/-- The command that withFetchWord places is the next access to arrive, as an admitted write of CMD. -/
theorem arrives_withFetchWord (s : State) (w : Word) :
    Arrives (s.withFetchWord 32 w.toNat)
      (.access (fullAccess (s.withFetchWord 32 w.toNat) 0 (.write w) 0)) s.pending := by
  refine ⟨?_, ready_ne_asserted _⟩
  rw [withFetchWord_pending, tableWord_toNat]
  rfl

/-- Settles O43: the placed word arrives, and decodes to the command. -/
theorem placedWordRunsNext : Obligations.PlacedWordRunsNext := by
  intro s i
  rw [← ready_eq_ite]
  exact stepRunsTheDecodedCommand _ 0 _ i s.pending (arrives_withFetchWord s (encode i)) (decodeCmd_encode i)

/-! ### What the block does not decode: the page and the host -/

/-- The outcome with its next state, if there is one, replaced. -/
def mapNext (f : State → State) : Host.Outcome State Fault Refusal → Host.Outcome State Fault Refusal
  | .next t => .next (f t)
  | .fault c => .fault c
  | .refused c => .refused c

theorem withPage_resetPhase (q : Nat) (s : State) : (withPage q s).resetPhase = s.resetPhase := rfl

theorem withPage_base (q : Nat) (s : State) : (withPage q s).params.base = 256 * q := rfl

/-- MemWrite does not read BASE. -/
theorem memWrite_withPage (q : Nat) (s : State) (v : Word) (r : Reg) :
    memWrite (withPage q s) v r = (memWrite s v r).map (mapNext (withPage q)) := by
  cases r with
  | cmd => simp only [memWrite, execute_eq_commit]; rfl
  | _ => rfl

/-- The block's answer depends on neither BASE nor the address, given the offset. -/
theorem respond_withPage (q addr : Nat) (s : State) (a : Access) (o : Nat) :
    respond (withPage q s) { a with addr := addr } o = (respond s a o).map (mapNext (withPage q)) := by
  have hadm : admitAccess { a with addr := addr } o = admitAccess a o := rfl
  unfold respond
  rw [hadm]
  cases admitAccess a o with
  | error c => rfl
  | ok r =>
    cases hk : a.kind with
    | read => rfl
    | write v => exact memWrite_withPage q s v r

/-- An access of the window, moved with it. -/
theorem hostAccess_withPage (q : Nat) {s : State} {a : Access} (hb : s.params.base ≤ a.addr)
    (he : a.addr < s.params.base + 256) :
    hostAccess (withPage q s) { a with addr := 256 * q + (a.addr - s.params.base) } =
      mapNext (withPage q) (hostAccess s a) := by
  have hlt : 256 * q + (a.addr - s.params.base) < (withPage q s).params.base + 256 := by
    rw [withPage_base]
    omega
  rw [hostAccess_window hb he, hostAccess_window (s := withPage q s) (Nat.le_add_right _ _) hlt, withPage_base,
    Nat.add_sub_cancel_left, respond_withPage]
  cases respond s a (a.addr - s.params.base) <;> rfl

theorem powerUp_withPage (q : Nat) (s : State) : (withPage q s).powerUp = withPage q s.powerUp := by
  simp only [State.powerUp, withPage_resetPhase]
  cases s.resetPhase <;> rfl

/-- An event arrives alike at every page of the window (R74). -/
theorem arrive_withPage (q : Nat) {s : State} {e : Event}
    (hw : ∀ a, e = .access a → s.params.base ≤ a.addr ∧ a.addr < s.params.base + 256) :
    arrive (withPage q s) (moveEvent s.params q e) = mapNext (withPage q) (arrive s e) := by
  cases e with
  | access a =>
    obtain ⟨hb, he⟩ := hw a rfl
    by_cases hs : s.resetPhase = .asserted
    · simp only [arrive, moveEvent, withPage, hs, mapNext]
    · rw [arrive_access hs, ← hostAccess_withPage q hb he]
      exact arrive_access (s := withPage q s) hs _
  | resetAssert => rfl
  | resetRelease =>
    simp only [arrive, moveEvent, withPage_resetPhase]
    cases s.resetPhase <;> rfl
  | powerUp => exact congrArg Host.Outcome.next (powerUp_withPage q s)

/-- The outcome `out'` is `out`, or both are the bus error of one access issued by two hosts: then all but the programs
that end, with the accesses they had still to issue, is the same (R178, R189). -/
def AgreeUpToIssuer (faults : List ProgramFault) (out out' : Host.Outcome State Fault Refusal) : Prop :=
  match out with
  | .next t =>
    ∃ u, out' = .next u ∧ u.operands = t.operands ∧ u.results = t.results ∧ u.reads = t.reads ∧
      u.resetPhase = t.resetPhase ∧ u.params = t.params ∧ u.draws = t.draws ∧
      u.faults.map ProgramFault.cause = t.faults.map ProgramFault.cause ∧ (t.faults = faults → u = t)
  | .fault f => out' = .fault f
  | .refused r => out' = .refused r

theorem agreeUpToIssuer_refl (faults : List ProgramFault) (out : Host.Outcome State Fault Refusal) :
    AgreeUpToIssuer faults out out := by
  cases out with
  | next t => exact ⟨t, rfl, rfl, rfl, rfl, rfl, rfl, rfl, rfl, fun _ => rfl⟩
  | fault f => rfl
  | refused r => rfl

/-- The bus error of one access, whoever issues it, has one cause. -/
theorem agreeUpToIssuer_busError (s : State) (a : Access) (h : Nat) (c : BusErrorCause) :
    AgreeUpToIssuer s.faults (.next (s.busError a c)) (.next (s.busError { a with host := h } c)) := by
  refine ⟨_, rfl, rfl, rfl, rfl, rfl, rfl, rfl, ?_, fun hf => ?_⟩
  · simp
  · simp at hf

/-- The checks and the answer of the block do not read the issuer of an access (R189). -/
theorem hostAccess_fromHost (s : State) (a : Access) (h : Nat) :
    AgreeUpToIssuer s.faults (hostAccess s a) (hostAccess s { a with host := h }) := by
  have hr : ∀ o, respond s { a with host := h } o = respond s a o := fun _ => rfl
  simp only [hostAccess, hr]
  cases windowOffset s.params a.addr with
  | none => rfl
  | some o =>
    dsimp only
    cases respond s a o with
    | error c => exact agreeUpToIssuer_busError s a h c
    | ok out => exact agreeUpToIssuer_refl _ _

/-- An event arrives alike from every host. -/
theorem arrive_fromHost (s : State) (e : Event) (h : Nat) :
    AgreeUpToIssuer s.faults (arrive s e) (arrive s (fromHost h e)) := by
  cases e with
  | access a =>
    by_cases hs : s.resetPhase = .asserted
    · simp only [arrive, fromHost, hs, AgreeUpToIssuer]
    · rw [arrive_access hs, fromHost, arrive_access hs]
      exact hostAccess_fromHost s a h
  | resetAssert | resetRelease | powerUp => exact agreeUpToIssuer_refl _ _

/-- Settles O41: the arriving event, moved with the window or issued by another host. -/
theorem onlyTheOffsetIsDecoded : Obligations.OnlyTheOffsetIsDecoded := by
  intro s e rest hq hw
  rw [step_cons hq]
  exact ⟨fun q => arrive_withPage q (s := { s with pending := rest }) hw,
    fun h => arrive_fromHost { s with pending := rest } e h⟩

end Sys2Proof.Proofs

/-! PROOFS. Command words (30_encoding.md): the fields of a word and its decoder, what every word written to CMD
commits and what its results depend on, and the assembler's immediates. -/

namespace Sys2Proof.Proofs

open Sys2Proof.Machine Sys2Proof.Safety Sys2Proof.Laws Sys2Proof.Claims

/-! ### The fields of a command word -/

theorem toNat_fieldsOf_rsvd (c : Word) : (fieldsOf c).rsvd.toNat = c.toNat / 128 := by
  simp only [fieldsOf, BitVec.extractLsb'_toNat, Nat.shiftRight_eq_div_pow]
  omega

theorem toNat_fieldsOf_width (c : Word) : (fieldsOf c).width.toNat = c.toNat / 16 % 8 := by
  simp [fieldsOf, BitVec.extractLsb'_toNat, Nat.shiftRight_eq_div_pow]

theorem toNat_fieldsOf_op (c : Word) : (fieldsOf c).op.toNat = c.toNat % 16 := by
  simp [fieldsOf, BitVec.extractLsb'_toNat]

theorem toNat_wordOf (f : CmdFields) : (wordOf f).toNat = 128 * f.rsvd.toNat + 16 * f.width.toNat + f.op.toNat := by
  simp only [wordOf, BitVec.toNat_cast, toNat_append_eq_add]
  omega

theorem fieldsOf_wordOf (f : CmdFields) : fieldsOf (wordOf f) = f := by
  have hr : (fieldsOf (wordOf f)).rsvd = f.rsvd := by
    apply BitVec.eq_of_toNat_eq
    rw [toNat_fieldsOf_rsvd, toNat_wordOf]
    omega
  have hw : (fieldsOf (wordOf f)).width = f.width := by
    apply BitVec.eq_of_toNat_eq
    rw [toNat_fieldsOf_width, toNat_wordOf]
    omega
  have ho : (fieldsOf (wordOf f)).op = f.op := by
    apply BitVec.eq_of_toNat_eq
    rw [toNat_fieldsOf_op, toNat_wordOf]
    omega
  calc fieldsOf (wordOf f)
      = ⟨(fieldsOf (wordOf f)).rsvd, (fieldsOf (wordOf f)).width, (fieldsOf (wordOf f)).op⟩ := rfl
    _ = f := by rw [hr, hw, ho]

theorem wordOf_fieldsOf (c : Word) : wordOf (fieldsOf c) = c := by
  apply BitVec.eq_of_toNat_eq
  rw [toNat_wordOf, toNat_fieldsOf_rsvd, toNat_fieldsOf_width, toNat_fieldsOf_op]
  omega

/-! ### The decoder's checks, one by one -/

/-- The value of OP that selects an operation (R92). -/
def opCode : Op → BitVec 4
  | .encode => 1#4
  | .decode => 2#4
  | .symbolAt => 3#4
  | .indexOf => 4#4

theorem opOf_eq_some_iff (x : BitVec 4) (op : Op) : opOf x = some op ↔ x = opCode op := by
  cases op <;> revert x <;> decide

theorem opOf_eq_none_iff : ∀ x : BitVec 4, opOf x = none ↔ x.toNat = 0 ∨ 4 < x.toNat := by decide

theorem widthOf_eq_some_iff (x : BitVec 3) (w : Width) : widthOf x = some w ↔ x = BitVec.ofNat 3 w.digits := by
  cases w <;> revert x <;> decide

theorem widthOf_eq_none_iff : ∀ x : BitVec 3, widthOf x = none ↔ x.toNat = 0 ∨ 5 < x.toNat := by decide

/-- The first two checks of R96: a reserved bit or an unassigned OP refuses the whole word. -/
theorem decodeCmd_badOpcode {c : Word} (h : (fieldsOf c).rsvd ≠ 0#25 ∨ opOf (fieldsOf c).op = none) :
    decodeCmd c = .error (.badOpcode c) := by
  unfold decodeCmd
  split
  · rfl
  · next hr => rw [h.resolve_left hr]

/-- With no reserved bit set and an assigned OP, only the width checks are left (R96). -/
theorem decodeCmd_eq_selectCmd {c : Word} {op : Op} (hr : (fieldsOf c).rsvd = 0#25) (ho : (fieldsOf c).op = opCode op) :
    decodeCmd c = selectCmd op (fieldsOf c).width := by
  simp only [decodeCmd, hr, (opOf_eq_some_iff _ op).2 ho, ne_eq, not_true_eq_false, if_false]

/-- The fields of the command that a legal pair of OP and WIDTH selects are that pair. -/
theorem encodeFields_of_selectCmd {op : Op} {x : BitVec 3} {i : Instr} (h : selectCmd op x = .ok i) :
    encodeFields i = { rsvd := 0#25, width := x, op := opCode op } := by
  cases op with
  | encode =>
    cases hw : widthOf x with
    | none => simp [selectCmd, hw] at h
    | some w =>
      obtain rfl : encodeInstr w = i := by simpa [selectCmd, hw] using h
      rw [(widthOf_eq_some_iff x w).1 hw]
      cases w <;> rfl
  | decode =>
    cases hw : widthOf x with
    | none => simp [selectCmd, hw] at h
    | some w =>
      obtain rfl : decodeInstr w = i := by simpa [selectCmd, hw] using h
      rw [(widthOf_eq_some_iff x w).1 hw]
      cases w <;> rfl
  | symbolAt | indexOf =>
    by_cases hx : x = 0#3
    · obtain rfl := by simpa [selectCmd, hx] using h
      rw [hx]
      rfl
    · simp [selectCmd, hx] at h

theorem fieldsOf_of_decodeCmd {c : Word} {i : Instr} (h : decodeCmd c = .ok i) : fieldsOf c = encodeFields i := by
  by_cases hr : (fieldsOf c).rsvd = 0#25
  · cases ho : opOf (fieldsOf c).op with
    | none =>
      rw [decodeCmd_badOpcode (.inr ho)] at h
      cases h
    | some op =>
      have hop := (opOf_eq_some_iff _ op).1 ho
      rw [decodeCmd_eq_selectCmd hr hop] at h
      rw [encodeFields_of_selectCmd h, ← hr, ← hop]
  · rw [decodeCmd_badOpcode (.inl hr)] at h
    cases h

/-- Decoding answers a command exactly on that command's word (R95, R96). -/
theorem decodeCmd_eq_ok_iff (c : Word) (i : Instr) : decodeCmd c = .ok i ↔ c = encode i := by
  constructor
  · intro h
    rw [encode, ← fieldsOf_of_decodeCmd h, wordOf_fieldsOf]
  · rintro rfl
    exact decodeCmd_encode i

/-! ### The opcode map -/

/-- The twelve rows of R95: each command with its word. -/
def commandWords : List (Instr × Word) :=
  [(.encode1, 0x00000011#32), (.encode2, 0x00000021#32), (.encode3, 0x00000031#32), (.encode4, 0x00000041#32),
   (.encode5, 0x00000051#32), (.decode1, 0x00000012#32), (.decode2, 0x00000022#32), (.decode3, 0x00000032#32),
   (.decode4, 0x00000042#32), (.decode5, 0x00000052#32), (.symbolAt, 0x00000003#32), (.indexOf, 0x00000004#32)]

theorem mem_commandWords_iff (i : Instr) (c : Word) : (i, c) ∈ commandWords ↔ c = encode i := by
  have hrows : ∀ row ∈ commandWords, row.2 = encode row.1 := by decide
  constructor
  · exact hrows (i, c)
  · rintro rfl
    cases i <;> decide

/-- Settles O1: a word's fields determine it, and those of a word that decodes are the fields of its command. -/
theorem decodeAndEncodeAgree : Obligations.DecodeAndEncodeAgree :=
  ⟨decodeCmd_eq_ok_iff, fun c i => (decodeCmd_eq_ok_iff c i).trans (mem_commandWords_iff i c).symm,
    fieldsOf_wordOf, wordOf_fieldsOf⟩

/-- A command's word decodes to it and has the fields of the opcode map. -/
theorem encode_row (i : Instr) {c : Word} (h : encode i = c) :
    encode i = c ∧ decodeCmd c = .ok i ∧ fieldsOf c = encodeFields i :=
  ⟨h, (decodeCmd_eq_ok_iff c i).2 h.symm, h ▸ fieldsOf_wordOf (encodeFields i)⟩

/-- Settles O2: row by row, from the word of each command. -/
theorem twelveCommandWords : Obligations.TwelveCommandWords :=
  ⟨encode_row .encode1 rfl, encode_row .encode2 rfl, encode_row .encode3 rfl, encode_row .encode4 rfl,
    encode_row .encode5 rfl, encode_row .decode1 rfl, encode_row .decode2 rfl, encode_row .decode3 rfl,
    encode_row .decode4 rfl, encode_row .decode5 rfl, encode_row .symbolAt rfl, encode_row .indexOf rfl⟩

/-! ### What an illegal word commits -/

theorem execute_badOpcode {s : State} {v : Word} (h : decodeCmd v = .error (.badOpcode v)) :
    execute s v = .next (failure s 5#3 v 0#32 0#3) := by
  simp only [execute, h]
  rfl

theorem execute_badWidth {s : State} {v lim : Word} {x : BitVec 3} (h : decodeCmd v = .error (.badWidth x lim)) :
    execute s v = .next (failure s 4#3 (x.setWidth 32) lim 0#3) := by
  simp only [execute, h]
  rfl

/-- With the word below 128 and an assigned OP, only the width checks are left. -/
theorem decodeCmd_of_toNat {v : Word} {op : Op} (hr : v.toNat / 128 = 0) (ho : v.toNat % 16 = (opCode op).toNat) :
    decodeCmd v = selectCmd op (fieldsOf v).width :=
  decodeCmd_eq_selectCmd (BitVec.eq_of_toNat_eq ((toNat_fieldsOf_rsvd v).trans hr))
    (BitVec.eq_of_toNat_eq ((toNat_fieldsOf_op v).trans ho))

/-- With no reserved bit set, WIDTH is all that stands above OP. -/
theorem toNat_fieldsOf_width_of_rsvd {v : Word} (h : v.toNat / 128 = 0) :
    (fieldsOf v).width.toNat = v.toNat / 16 := by
  rw [toNat_fieldsOf_width]
  omega

theorem setWidth_fieldsOf_width {v : Word} (h : v.toNat / 128 = 0) :
    (fieldsOf v).width.setWidth 32 = BitVec.ofNat 32 (v.toNat / 16) := by
  rw [← toNat_fieldsOf_width_of_rsvd h, BitVec.ofNat_toNat]

theorem selectCmd_badWidth_five {op : Op} {x : BitVec 3} (hop : op = .encode ∨ op = .decode)
    (hx : x.toNat = 0 ∨ 5 < x.toNat) : selectCmd op x = .error (.badWidth x 5#32) := by
  have hw := (widthOf_eq_none_iff x).2 hx
  rcases hop with rfl | rfl <;> simp only [selectCmd, hw]

theorem selectCmd_badWidth_zero {op : Op} {x : BitVec 3} (hop : op = .symbolAt ∨ op = .indexOf)
    (hx : x.toNat ≠ 0) : selectCmd op x = .error (.badWidth x 0#32) := by
  have hw : x ≠ 0#3 := fun h => hx (congrArg BitVec.toNat h)
  rcases hop with rfl | rfl <;> simp only [selectCmd, hw, if_false]

/-- A legal pair of OP and WIDTH selects a command (R93). -/
theorem selectCmd_ok {op : Op} {x : BitVec 3}
    (h : (op = .encode ∨ op = .decode) ∧ 1 ≤ x.toNat ∧ x.toNat ≤ 5 ∨
      (op = .symbolAt ∨ op = .indexOf) ∧ x.toNat = 0) : ∃ i, selectCmd op x = .ok i := by
  rcases h with ⟨hop, h1, h5⟩ | ⟨hop, h0⟩
  · cases hw : widthOf x with
    | none =>
      have hx := (widthOf_eq_none_iff x).1 hw
      omega
    | some w => rcases hop with rfl | rfl <;> simp only [selectCmd, hw] <;> exact ⟨_, rfl⟩
  · have hw : x = 0#3 := BitVec.eq_of_toNat_eq h0
    rcases hop with rfl | rfl <;> simp only [selectCmd, hw, if_true] <;> exact ⟨_, rfl⟩

/-- The operation of an OP value of 1 or 2. -/
theorem exists_widthOp {n : Nat} (h : n = 1 ∨ n = 2) :
    ∃ op, (op = .encode ∨ op = .decode) ∧ n = (opCode op).toNat := by
  rcases h with rfl | rfl
  · exact ⟨.encode, .inl rfl, rfl⟩
  · exact ⟨.decode, .inr rfl, rfl⟩

/-- The operation of an OP value of 3 or 4. -/
theorem exists_tableOp {n : Nat} (h : n = 3 ∨ n = 4) :
    ∃ op, (op = .symbolAt ∨ op = .indexOf) ∧ n = (opCode op).toNat := by
  rcases h with rfl | rfl
  · exact ⟨.symbolAt, .inl rfl, rfl⟩
  · exact ⟨.indexOf, .inr rfl, rfl⟩

/-- Settles O3: the decoder's answer on each class of words, in the order of its checks. -/
theorem illegalWordCommitsItsError : Obligations.IllegalWordCommitsItsError := by
  intro s v
  refine ⟨fun h => ?_, fun hr hop hw => ?_, fun hr hop hw => ?_, fun hr h => ?_⟩
  · rw [← toNat_fieldsOf_rsvd, ← toNat_fieldsOf_op, ← opOf_eq_none_iff] at h
    exact execute_badOpcode (decodeCmd_badOpcode (h.imp_left (mt (congrArg BitVec.toNat))))
  · obtain ⟨op, hkind, ho⟩ := exists_widthOp hop
    rw [← toNat_fieldsOf_width_of_rsvd hr] at hw
    rw [← setWidth_fieldsOf_width hr]
    exact execute_badWidth ((decodeCmd_of_toNat hr ho).trans (selectCmd_badWidth_five hkind hw))
  · obtain ⟨op, hkind, ho⟩ := exists_tableOp hop
    rw [← toNat_fieldsOf_width_of_rsvd hr] at hw
    rw [← setWidth_fieldsOf_width hr]
    exact execute_badWidth ((decodeCmd_of_toNat hr ho).trans (selectCmd_badWidth_zero hkind hw))
  · obtain ⟨i, hi⟩ : ∃ i, decodeCmd v = .ok i := by
      rw [← toNat_fieldsOf_width_of_rsvd hr] at h
      rcases h with ⟨hop, hw⟩ | ⟨hop, hw⟩
      · obtain ⟨op, hkind, ho⟩ := exists_widthOp hop
        exact decodeCmd_of_toNat hr ho ▸ selectCmd_ok (.inl ⟨hkind, hw⟩)
      · obtain ⟨op, hkind, ho⟩ := exists_tableOp hop
        exact decodeCmd_of_toNat hr ho ▸ selectCmd_ok (.inr ⟨hkind, hw⟩)
    exact ⟨i, (decodeCmd_eq_ok_iff v i).1 hi, execute_of_decodeCmd s hi⟩

/-! ### What every word commits -/

/-- A committed success leaves the error context 0 (R99). -/
theorem CommitForm.no_error_context {r : Results} (h : CommitForm r) (hv : r.rvalid = true) :
    r.errVal = 0#32 ∧ r.errLim = 0#32 ∧ r.errPos = 0#3 := by
  cases h with
  | value dout hlt => exact ⟨rfl, rfl, rfl⟩
  | string l hlen hsym => exact ⟨rfl, rfl, rfl⟩
  | error e hpos hkind => cases hv

/-- A committed error leaves no result (R181). -/
theorem CommitForm.no_result {r : Results} (h : CommitForm r) (hv : r.rvalid = false) :
    r.dout = 0#32 ∧ r.soutLen = 0#3 ∧ r.sout = Chars.zero := by
  cases h with
  | value dout hlt => cases hv
  | string l hlen hsym => cases hv
  | error e hpos hkind => exact ⟨rfl, rfl, rfl⟩

/-- SOUT is 0x00 from position SOUTLEN on (R34, R99). -/
theorem CommitForm.sout_past_soutLen {r : Results} (h : CommitForm r) {k : Nat} (hk : r.soutLen.toNat ≤ k) :
    r.sout.toList.getD k 0#8 = 0#8 := by
  cases h with
  | value dout hlt => exact getD_toList_ofList (l := []) (by decide) k
  | error e hpos hkind => exact getD_toList_ofList (l := []) (by decide) k
  | string l hlen hsym =>
    have hn : l.length ≤ k := by
      simp only [commitOK, BitVec.toNat_ofNat] at hk
      omega
    simp only [commitOK, List.take_length, getD_toList_ofList hlen]
    exact List.getD_eq_default _ _ hn

/-- Settles O29: each form of commit is wholly a success or wholly an error. -/
theorem everyCommandEndsInOneCommit : Obligations.EveryCommandEndsInOneCommit := by
  intro s v
  have hform := wordResults_form v s.operands
  obtain ⟨hcode, hlen, -⟩ := legalResults_inRange hform.legal
  have hflag : (wordResults v s.operands).rvalid = true ↔ (wordResults v s.operands).errCode = 0#3 := by
    rcases hform.flags with ⟨hv, hc⟩ | ⟨hv, h1, -⟩
    · simp [hv, hc]
    · have hc : (wordResults v s.operands).errCode ≠ 0#3 := fun h0 => absurd (h0 ▸ h1) (by decide)
      simp [hv, hc]
  exact ⟨_, execute_eq_commit s v, hflag, hcode, hform.no_error_context, hform.no_result, hlen,
    fun _ => hform.sout_past_soutLen⟩

/-- A committed result changes no register but a result register (R100, R119). -/
theorem memRead_commit (s : State) (r : Results) {reg : Reg}
    (h : writable reg = true ∨ (∃ j, reg = .alphabet j) ∨ reg = .separator) :
    memRead (s.commit r) reg = memRead s reg := by
  rcases h with hw | ⟨j, rfl⟩ | rfl
  · cases reg with
    | cmd | din | slen | sin0 | sin1 => rfl
    | status | dout | soutLen | sout0 | sout1 | errVal | errLim | errPos | separator | alphabet j => cases hw
  · rfl
  · rfl

/-- Settles O28: every word commits results, and a commit changes nothing else. -/
theorem commandsWriteOnlyResults : Obligations.CommandsWriteOnlyResults := fun s v =>
  ⟨_, execute_eq_commit s v, rfl, rfl, rfl, rfl, rfl, rfl, rfl, fun _ => memRead_commit s _⟩

/-! ### What the results depend on -/

theorem encodeN_congr (w : Width) {a b : Operands} (h : a.din = b.din) : encodeN w a = encodeN w b := by
  simp only [encodeN, h]

theorem decodeN_congr {w : Width} {a b : Operands} (hlen : a.slen = b.slen)
    (hs : stringOperand a w = stringOperand b w) : decodeN w a = decodeN w b := by
  simp only [decodeN, hlen, hs]

/-- The string operand of DECODEN is SIN[0..N-1] (R94). -/
theorem stringOperand_eq (o : Operands) (w : Width) :
    stringOperand o w = match w with
      | .w1 => [o.sin.c0]
      | .w2 => [o.sin.c0, o.sin.c1]
      | .w3 => [o.sin.c0, o.sin.c1, o.sin.c2]
      | .w4 => [o.sin.c0, o.sin.c1, o.sin.c2, o.sin.c3]
      | .w5 => [o.sin.c0, o.sin.c1, o.sin.c2, o.sin.c3, o.sin.c4] := by
  cases w <;> rfl

/-- A command's results are a function of the operands it reads (R94, R101). -/
theorem commandResults_congr {i : Instr} {a b : Operands} (h : AgreeOnReads i a b) :
    commandResults i a = commandResults i b := by
  cases i with
  | encode1 | encode2 | encode3 | encode4 | encode5 => exact encodeN_congr _ h
  | symbolAt =>
    have hdin : a.din = b.din := h
    simp only [commandResults, symbolAtCmd, hdin]
  | indexOf =>
    have hc : a.sin.c0 = b.sin.c0 := h
    simp only [commandResults, indexOfCmd, hc]
  | decode1 =>
    obtain ⟨hlen, h0⟩ := h
    exact decodeN_congr hlen (by simp only [stringOperand_eq, h0])
  | decode2 =>
    obtain ⟨hlen, h0, h1⟩ := h
    exact decodeN_congr hlen (by simp only [stringOperand_eq, h0, h1])
  | decode3 =>
    obtain ⟨hlen, h0, h1, h2⟩ := h
    exact decodeN_congr hlen (by simp only [stringOperand_eq, h0, h1, h2])
  | decode4 =>
    obtain ⟨hlen, h0, h1, h2, h3⟩ := h
    exact decodeN_congr hlen (by simp only [stringOperand_eq, h0, h1, h2, h3])
  | decode5 =>
    obtain ⟨hlen, hs⟩ := h
    exact decodeN_congr hlen (by simp only [stringOperand, hs])

theorem wordResults_congr {v : Word} {a b : Operands} (h : ∀ i, decodeCmd v = .ok i → AgreeOnReads i a b) :
    wordResults v a = wordResults v b := by
  unfold wordResults
  cases hd : decodeCmd v with
  | ok i => exact commandResults_congr (h i hd)
  | error e => rfl

/-- Settles O30: both states commit the results of the word, which the operands read determine. -/
theorem resultsDependOnlyOnOperandsRead : Obligations.ResultsDependOnlyOnOperandsRead := fun v s s' h =>
  ⟨_, _, execute_eq_commit s v, execute_eq_commit s' v, wordResults_congr h⟩

/-! ### Immediates -/

theorem immediate_of_lt {n : Nat} (h : n < 2 ^ 32) : immediate n = .ok (BitVec.ofNat 32 n) := if_pos h

theorem immediate_of_le {n : Nat} (h : 2 ^ 32 ≤ n) : immediate n = .error (.immediateTooLarge n) :=
  if_neg (Nat.not_lt.2 h)

/-- Settles O60: an immediate is refused or is the word of its own value. -/
theorem assemblerNeverTruncates : Obligations.AssemblerNeverTruncates := by
  intro p r n
  refine ⟨fun h => ?_, fun h => ⟨BitVec.ofNat 32 n, ?_, ?_⟩⟩
  · simp only [assembleLine, immediate_of_le h]
  · simp only [assembleLine, immediate_of_lt h]
  · rw [BitVec.toNat_ofNat, Nat.mod_eq_of_lt h]

end Sys2Proof.Proofs

/-! PROOFS. The alphabet (40_alphabet.md): the tables SYM and REV, their registers, the separator, and the commands
SYMBOL_AT and INDEX_OF. -/

namespace Sys2Proof.Proofs

open Sys2Proof.Machine Sys2Proof.Safety Sys2Proof.Laws Sys2Proof.Claims

/-! ### The tables -/

/-- SYM by ranges of the index (R110, closed form). -/
theorem toNat_SYM : ∀ i : BitVec 6, (SYM i).toNat =
    if i.toNat ≤ 9 then 0x30 + i.toNat
    else if i.toNat ≤ 35 then 0x41 + (i.toNat - 10)
    else if i.toNat ≤ 61 then 0x61 + (i.toNat - 36)
    else if i.toNat = 62 then 0x2D
    else 0x5F := by decide

/-- Settles O5: the table against the string, symbol by symbol, and its closed form. -/
theorem symbolTableIsTheAlphabet : Obligations.SymbolTableIsTheAlphabet :=
  ⟨by decide, toNat_SYM⟩

/-- Settles O6: in each range the index fits six bits, so nothing is truncated. -/
theorem reverseIndexOfEveryCode : Obligations.ReverseIndexOfEveryCode := by
  intro b
  simp only [REV, BitVec.le_def, ← BitVec.toNat_inj, BitVec.toNat_ofNat]
  split_ifs with hdigit hupper hlower
  any_goals rfl
  all_goals
    rw [Option.map_some, Option.some_inj]
    simp only [BitVec.toNat_setWidth, BitVec.toNat_add, BitVec.toNat_sub, BitVec.toNat_ofNat]
    omega

/-- A code has an index exactly when it is the symbol of that index (R114). -/
theorem REV_eq_some_iff (b : Byte) (i : BitVec 6) : REV b = some i ↔ SYM i = b := by
  have hindex : REV b = some i ↔ (REV b).map BitVec.toNat = some i.toNat :=
    (Option.map_injective (fun _ _ => BitVec.eq_of_toNat_eq)).eq_iff.symm
  have hsym := toNat_SYM i
  have hi := i.isLt
  rw [hindex, reverseIndexOfEveryCode, ← BitVec.toNat_inj]
  split_ifs with hdigit hupper hlower hminus hunderscore
  case neg =>
    rw [iff_false_left nofun]
    split_ifs at hsym <;> omega
  all_goals
    rw [Option.some_inj]
    split_ifs at hsym <;> omega

/-- Settles O7: both inverse laws are one equivalence, and the symbols are counted code by code. -/
theorem tablesAreInverse : Obligations.TablesAreInverse :=
  ⟨fun i => (REV_eq_some_iff _ i).2 rfl, fun b i => (REV_eq_some_iff b i).1, by decide⟩

/-- Settles O8: the words of the table, each found at its register's offset. -/
theorem alphabetRegisterWords : Obligations.AlphabetRegisterWords := fun s =>
  ⟨(List.map_congr_left fun j _ => alphabetWord_eq j).trans (by decide), fun j => regAt_offset (.alphabet j)⟩

/-! ### The separator -/

/-- The characters that legal results produce are symbols of the table (R34, R138). -/
theorem REV_ne_none_of_mem_sout {r : Results} (h : LegalResults r) {b : Byte}
    (hb : b ∈ r.sout.toList.take r.soutLen.toNat) : REV b ≠ none := by
  obtain ⟨k, hk, rfl⟩ := List.mem_take_iff_getElem.1 hb
  obtain ⟨hlen, h5⟩ : k < r.soutLen.toNat ∧ k < 5 := lt_min_iff.1 hk
  rcases h with rfl | ⟨-, -, -, -, -, -, -, -, hsout⟩ | ⟨-, -, -, -, hzero, -⟩
  · exact absurd hlen (Nat.not_lt_zero k)
  · rw [← List.getD_eq_getElem _ 0#8]
    exact (hsout k h5).1 hlen
  · rw [hzero] at hlen
    exact absurd hlen (Nat.not_lt_zero k)

theorem REV_SEP : REV SEP = none := by decide

/-- Settles O9: every word commits legal results, whose characters have an index, and the separator has none. -/
theorem separatorNeverProduced : Obligations.SeparatorNeverProduced :=
  ⟨REV_SEP, fun _ => rfl, fun s v => ⟨_, execute_eq_commit s v, fun _ hb heq =>
    REV_ne_none_of_mem_sout (wordResults_form v s.operands).legal hb (heq ▸ REV_SEP)⟩⟩

/-! ### SYMBOL_AT and INDEX_OF -/

/-- A word of OP 3 or 4 that is not the command's own word commits BAD_OPCODE or BAD_WIDTH (R96). -/
theorem execute_tableOp_illegal (s : State) {v c : Word} (hc : c.toNat = 3 ∨ c.toNat = 4)
    (hop : v.toNat % 16 = c.toNat) (hne : v ≠ c) :
    ∃ code val lim, (code = 4#3 ∨ code = 5#3) ∧ execute s v = .next (failure s code val lim 0#3) := by
  obtain ⟨hopcode, -, hwidth, -⟩ := illegalWordCommitsItsError s v
  have hbits : v.toNat / 16 ≠ 0 := fun h => hne (BitVec.eq_of_toNat_eq (by omega))
  by_cases hr : v.toNat / 128 = 0
  · exact ⟨_, _, _, .inl rfl, hwidth hr (hop ▸ hc) hbits⟩
  · exact ⟨_, _, _, .inr rfl, hopcode (.inl hr)⟩

theorem exec_symbolAt_of_le {s : State} (h : s.operands.din ≤ 63#32) :
    exec .symbolAt s =
      .next (success s 0#32 1#3 { c0 := symAt s.operands.din 0, c1 := 0#8, c2 := 0#8, c3 := 0#8, c4 := 0#8 }) := by
  rw [exec_eq_commit, commandResults, symbolAtCmd, if_neg (BitVec.not_lt.2 h), 
    BitVec.setWidth_eq_extractLsb' (by decide)]
  rfl

theorem exec_symbolAt_of_lt {s : State} (h : 63#32 < s.operands.din) :
    exec .symbolAt s = .next (failure s 1#3 s.operands.din 63#32 0#3) := by
  rw [exec_eq_commit, commandResults, symbolAtCmd, if_pos h]
  rfl

/-- SYMBOL_AT is ENCODE1: the one group of six bits is the index (R117, R132). -/
theorem symbolAtCmd_eq_encodeN (o : Operands) : symbolAtCmd o = encodeN .w1 o := by
  rw [symbolAtCmd, BitVec.setWidth_eq_extractLsb' (by decide), encodeN, groupOffsets, List.map_singleton,
    isolate_eq_slice]
  rfl

theorem exec_indexOf_of_some {s : State} {r : BitVec 6} (h : REV s.operands.sin.c0 = some r) :
    exec .indexOf s = .next (success s (BitVec.ofNat 32 r.toNat) 0#3 Chars.zero) := by
  simp only [exec_eq_commit, commandResults, indexOfCmd, h, BitVec.ofNat_toNat]
  rfl

theorem exec_indexOf_of_none {s : State} (h : REV s.operands.sin.c0 = none) :
    exec .indexOf s = .next (failure s 3#3 (BitVec.ofNat 32 s.operands.sin.c0.toNat) 1#32 0#3) := by
  simp only [exec_eq_commit, commandResults, indexOfCmd, h, BitVec.ofNat_toNat]
  rfl

/-- Settles O10: one case per side of 63, and the illegal words of OP 3. -/
theorem symbolAtResult : Obligations.SymbolAtResult :=
  ⟨rfl, fun s => ⟨exec_symbolAt_of_le, exec_symbolAt_of_lt,
    by simp only [exec_eq_commit, commandResults, symbolAtCmd_eq_encodeN],
    fun _ => execute_tableOp_illegal (c := 3#32) s (.inl rfl)⟩⟩

/-- Settles O11: one case per answer of REV, and the illegal words of OP 4. -/
theorem indexOfResult : Obligations.IndexOfResult :=
  ⟨rfl, fun s => ⟨fun _ => exec_indexOf_of_some, exec_indexOf_of_none,
    fun _ => execute_tableOp_illegal (c := 4#32) s (.inr rfl)⟩⟩

/-- An index is the low six bits of a word of at most 63. -/
theorem ofNat_toNat_slice {n : Word} (h : n ≤ 63#32) : BitVec.ofNat 32 (n.extractLsb' 0 6).toNat = n := by
  have hn : n.toNat ≤ 63 := h
  apply BitVec.eq_of_toNat_eq
  simp only [BitVec.extractLsb'_toNat, BitVec.toNat_ofNat, Nat.shiftRight_zero]
  omega

/-- A six-bit index is the low six bits of its word. -/
theorem slice_ofNat_toNat (r : BitVec 6) : (BitVec.ofNat 32 r.toNat).extractLsb' 0 6 = r := by
  apply BitVec.eq_of_toNat_eq
  simp only [BitVec.extractLsb'_toNat, BitVec.toNat_ofNat, Nat.shiftRight_zero]
  omega

/-- The word of an index is at most 63. -/
theorem ofNat_toNat_le (r : BitVec 6) : BitVec.ofNat 32 r.toNat ≤ 63#32 := by
  simp only [BitVec.le_def, BitVec.toNat_ofNat]
  omega

theorem memRead_status_success (s : State) (dout : Word) (len : BitVec 3) (sout : Chars) :
    memRead (success s dout len sout) .status = 0x100#32 :=
  BitVec.eq_of_toNat_eq (toNat_statusWord _)

/-- A string of one character reads as its code (R34). -/
theorem wordOfLanes_single (b : Byte) : wordOfLanes b 0#8 0#8 0#8 = BitVec.ofNat 32 b.toNat :=
  wordOfLanes_eq_fourBytes b 0#8 0#8 0#8

/-- Settles O12: each command leaves what the other one reads, and the tables are inverse. -/
theorem symbolAndIndexCommandsInvert : Obligations.SymbolAndIndexCommandsInvert := by
  constructor
  · intro s hdin
    refine ⟨_, _, _, exec_symbolAt_of_le hdin, rfl,
      exec_indexOf_of_some (r := s.operands.din.extractLsb' 0 6) ?_, ofNat_toNat_slice hdin,
      memRead_status_success _ _ _ _⟩
    have hlane : lane (wordOfLanes (symAt s.operands.din 0) 0#8 0#8 0#8) 0 = symAt s.operands.din 0 :=
      lane_wordOfLanes _ _ _ _ (by decide)
    exact (congrArg REV hlane).trans ((REV_eq_some_iff _ _).2 rfl)
  · intro s hrev
    obtain ⟨r, hr⟩ := Option.ne_none_iff_exists'.1 hrev
    refine ⟨_, _, _, exec_indexOf_of_some hr, rfl, exec_symbolAt_of_le (ofNat_toNat_le r), ?_,
      memRead_status_success _ _ _ _⟩
    have hsym : symAt (BitVec.ofNat 32 r.toNat) 0 = s.operands.sin.c0 := by
      rw [symAt, slice_ofNat_toNat, (REV_eq_some_iff _ r).1 hr]
    exact (wordOfLanes_single _).trans (congrArg (fun b => BitVec.ofNat 32 b.toNat) hsym)

end Sys2Proof.Proofs

/-! PROOFS. The encoder (41_encode.md): the string ENCODEN leaves for every width and every DIN, what that string says
of its value, and the width selector of the assembler and the host library. -/

namespace Sys2Proof.Proofs

open Sys2Proof.Machine Sys2Proof.Laws Sys2Proof.Claims

/-! ### The string of a value -/

/-- The string of a value in width N: the symbols of its six-bit groups, the most significant first (R132). -/
def encodedString (w : Width) (n : Word) : List Byte :=
  (List.range w.digits).map fun k => symAt n (6 * (w.digits - 1 - k))

theorem length_encodedString (w : Width) (n : Word) : (encodedString w n).length = w.digits := by
  simp [encodedString]

theorem length_encodedString_le_five (w : Width) (n : Word) : (encodedString w n).length ≤ 5 :=
  (length_encodedString w n).trans_le (digits_le_five w)

/-- Position k of SOUT holds the symbol of the k-th group from the left (R132). -/
theorem getD_sout_encodedString_of_lt {w : Width} (n : Word) {k : Nat} (h : k < w.digits) :
    (Chars.ofList (encodedString w n)).toList.getD k 0#8 = symAt n (6 * (w.digits - 1 - k)) := by
  rw [getD_toList_ofList (length_encodedString_le_five w n), List.getD_eq_getElem _ _ (by rwa [length_encodedString])]
  simp [encodedString]

/-- SOUT holds 0x00 past the string (R99). -/
theorem getD_sout_encodedString_of_le {w : Width} (n : Word) {k : Nat} (h : w.digits ≤ k) :
    (Chars.ofList (encodedString w n)).toList.getD k 0#8 = 0#8 := by
  rw [getD_toList_ofList (length_encodedString_le_five w n)]
  exact List.getD_eq_default _ _ ((length_encodedString w n).trans_le h)

/-- The encoder isolates its groups from the left, at the offsets 6 * (N - 1 - k) (R132). -/
theorem map_bits_groupOffsets (w : Width) :
    (groupOffsets w).map GroupOffset.bits = (List.range w.digits).map fun k => 6 * (w.digits - 1 - k) := by
  cases w <;> rfl

theorem map_SYM_isolate (w : Width) (n : Word) :
    ((groupOffsets w).map fun off => SYM (isolate n off)) = encodedString w n :=
  calc ((groupOffsets w).map fun off => SYM (isolate n off))
      = ((groupOffsets w).map GroupOffset.bits).map (symAt n) := by
        simp only [isolate_eq_slice, List.map_map]
        rfl
    _ = encodedString w n := by
        rw [map_bits_groupOffsets, List.map_map]
        rfl

/-! ### What ENCODEN commits -/

theorem toNat_maxValue (w : Width) : (maxValue w).toNat = 2 ^ (6 * w.digits) - 1 := by
  cases w <;> rfl

/-- ENCODEN of a value in range commits its string (R99, R132). -/
theorem exec_encode_of_le {w : Width} {s : State} (h : s.operands.din ≤ maxValue w) :
    exec (encodeInstr w) s =
      .next (success s 0#32 (BitVec.ofNat 3 w.digits) (Chars.ofList (encodedString w s.operands.din))) := by
  rw [exec_eq_commit, commandResults_encodeInstr, encodeN, if_neg (BitVec.not_lt.2 h), map_SYM_isolate, commitOK,
    List.take_of_length_le (length_encodedString w _).le]
  rfl

/-- ENCODEN of any other value commits OUT_OF_RANGE with the value and the limit (R132, R172). -/
theorem exec_encode_of_lt {w : Width} {s : State} (h : maxValue w < s.operands.din) :
    exec (encodeInstr w) s = .next (failure s 1#3 s.operands.din (maxValue w) 0#3) := by
  rw [exec_eq_commit, commandResults_encodeInstr, encodeN, if_pos h]
  rfl

/-- ENCODEN that left RVALID 1 had a value in range and left its string. -/
theorem exec_encode_valid {w : Width} {s t : State} (hexec : exec (encodeInstr w) s = .next t)
    (hvalid : t.results.rvalid = true) :
    s.operands.din ≤ maxValue w ∧
      t = success s 0#32 (BitVec.ofNat 3 w.digits) (Chars.ofList (encodedString w s.operands.din)) := by
  by_cases h : s.operands.din ≤ maxValue w
  · rw [exec_encode_of_le h] at hexec
    exact ⟨h, (Host.Outcome.next.inj hexec).symm⟩
  · rw [exec_encode_of_lt (BitVec.not_le.1 h)] at hexec
    obtain rfl := Host.Outcome.next.inj hexec
    cases hvalid

/-- Settles O13: ENCODEN at width 1, on either side of its limit; SYMBOL_AT commits the same. -/
theorem encode1Result : Obligations.Encode1Result :=
  ⟨rfl, fun s => ⟨exec_encode_of_le (w := .w1), exec_encode_of_lt (w := .w1), by
    simp only [exec_eq_commit, commandResults, symbolAtCmd_eq_encodeN]⟩⟩

/-- Settles O14: ENCODEN at width 2, on either side of its limit. -/
theorem encode2Result : Obligations.Encode2Result :=
  ⟨rfl, fun _ => ⟨exec_encode_of_le (w := .w2), exec_encode_of_lt (w := .w2)⟩⟩

/-- Settles O15: ENCODEN at width 3, on either side of its limit. -/
theorem encode3Result : Obligations.Encode3Result :=
  ⟨rfl, fun _ => ⟨exec_encode_of_le (w := .w3), exec_encode_of_lt (w := .w3)⟩⟩

/-- Settles O16: ENCODEN at width 4, on either side of its limit. -/
theorem encode4Result : Obligations.Encode4Result :=
  ⟨rfl, fun _ => ⟨exec_encode_of_le (w := .w4), exec_encode_of_lt (w := .w4)⟩⟩

/-- A word needs more than 30 bits exactly when one of its two top bits is set (R137). -/
theorem lt_iff_top_slice_ne_zero (n : Word) : 0x3FFFFFFF#32 < n ↔ n.extractLsb' 30 2 ≠ 0#2 := by
  rw [ne_eq, ← BitVec.toNat_inj, BitVec.lt_def, BitVec.extractLsb'_toNat, Nat.shiftRight_eq_div_pow]
  simp only [BitVec.toNat_ofNat]
  omega

/-- Settles O17: ENCODEN at width 5, on either side of its limit, which the two top bits of DIN tell apart. -/
theorem encode5Result : Obligations.Encode5Result :=
  ⟨rfl, fun _ => ⟨exec_encode_of_le (w := .w5), exec_encode_of_lt (w := .w5), lt_iff_top_slice_ne_zero _⟩⟩

/-- Settles O18: in range the command succeeds, and otherwise the error holds the limit. -/
theorem encodeSucceedsExactlyInRange : Obligations.EncodeSucceedsExactlyInRange := by
  intro w s
  rw [← toNat_maxValue, ← BitVec.le_def]
  by_cases h : s.operands.din ≤ maxValue w
  · exact ⟨_, exec_encode_of_le h, iff_of_true rfl h, nofun⟩
  · exact ⟨_, exec_encode_of_lt (BitVec.not_le.1 h), iff_of_false Bool.false_ne_true h, fun _ => ⟨rfl, rfl, rfl⟩⟩

/-! ### What the string says of its value -/

theorem SYM_injective : Function.Injective SYM := fun i j h =>
  Option.some.inj (((REV_eq_some_iff _ i).2 h).symm.trans ((REV_eq_some_iff _ j).2 rfl))

theorem toNat_ofNat_digits (w : Width) : (BitVec.ofNat 3 w.digits).toNat = w.digits := by
  cases w <;> rfl

/-- A character of the string has an index (R138). -/
theorem REV_sout_encodedString_ne_none {w : Width} (n : Word) {k : Nat} (h : k < w.digits) :
    REV ((Chars.ofList (encodedString w n)).toList.getD k 0#8) ≠ none := by
  rw [getD_sout_encodedString_of_lt n h]
  exact REV_SYM_ne_none _

/-- A value in range has no bit past its N groups. -/
theorem getLsbD_of_le_maxValue {w : Width} {n : Word} (h : n ≤ maxValue w) {i : Nat} (hi : 6 * w.digits ≤ i) :
    n.getLsbD i = false := by
  rw [BitVec.le_def, toNat_maxValue] at h
  have hlt : n.toNat < 2 ^ (6 * w.digits) := by
    have := Nat.two_pow_pos (6 * w.digits)
    omega
  exact Nat.testBit_lt_two_pow (hlt.trans_le (Nat.pow_le_pow_right (by decide) hi))

/-- Bit i of a word is bit i mod 6 of its group i / 6. -/
theorem getLsbD_eq_getLsbD_group (n : Word) (i : Nat) :
    n.getLsbD i = (n.extractLsb' (6 * (i / 6)) 6).getLsbD (i % 6) := by
  rw [BitVec.getLsbD_extractLsb', Nat.div_add_mod, decide_eq_true (Nat.mod_lt i (by decide)), Bool.true_and]

/-- Values in range with the same symbol at every position are equal, since the table is one-to-one (R114, R138). -/
theorem eq_of_symAt_eq {w : Width} {m n : Word} (hm : m ≤ maxValue w) (hn : n ≤ maxValue w)
    (h : ∀ k < w.digits, symAt m (6 * (w.digits - 1 - k)) = symAt n (6 * (w.digits - 1 - k))) : m = n := by
  refine BitVec.eq_of_getLsbD_eq fun i _ => ?_
  by_cases hi : i < 6 * w.digits
  · have hgroup := h (w.digits - 1 - i / 6) (by omega)
    rw [show w.digits - 1 - (w.digits - 1 - i / 6) = i / 6 by omega] at hgroup
    rw [getLsbD_eq_getLsbD_group m, getLsbD_eq_getLsbD_group n, SYM_injective hgroup]
  · rw [getLsbD_of_le_maxValue hm (by omega), getLsbD_of_le_maxValue hn (by omega)]

/-- Values in range with the same string are equal (R138). -/
theorem eq_of_encodedString_eq {w : Width} {m n : Word} (hm : m ≤ maxValue w) (hn : n ≤ maxValue w)
    (h : Chars.ofList (encodedString w m) = Chars.ofList (encodedString w n)) : m = n :=
  eq_of_symAt_eq hm hn fun k hk => by
    rw [← getD_sout_encodedString_of_lt m hk, ← getD_sout_encodedString_of_lt n hk, h]

/-- Settles O19: each position of SOUT is a position of the string, and the string's groups make up its value. -/
theorem encodedStringProperties : Obligations.EncodedStringProperties := by
  refine ⟨fun w s t hexec hvalid => ?_, fun w s s' t t' hexec hexec' hvalid hvalid' hsout => ?_, by decide⟩
  · obtain ⟨-, rfl⟩ := exec_encode_valid hexec hvalid
    refine ⟨toNat_ofNat_digits w, fun k hk => ?_, fun _ => getD_sout_encodedString_of_lt _,
      fun _ => getD_sout_encodedString_of_le _⟩
    have hrev := REV_sout_encodedString_ne_none s.operands.din hk
    exact ⟨hrev, fun hsep => hrev (hsep ▸ REV_SEP)⟩
  · obtain ⟨hle, rfl⟩ := exec_encode_valid hexec hvalid
    obtain ⟨hle', rfl⟩ := exec_encode_valid hexec' hvalid'
    exact eq_of_encodedString_eq hle hle' hsout

/-! ### The width selector -/

theorem widthField_error {w : Int} (h : w < 0 ∨ 8 ≤ w) : widthField w = .error .widthError :=
  if_neg (by omega)

/-- A width that WIDTH cannot hold is reported whatever the number is (R208; log entry 20). -/
theorem libraryEncode_widthError (p : Params) {w : Int} (n : HostNumber) (h : w < 0 ∨ 8 ≤ w) :
    libraryEncode p w n = .error .widthError := by
  rw [libraryEncode, widthField_error h]

/-- A width that WIDTH cannot hold is reported whatever the string is (R208; log entry 20). -/
theorem libraryDecode_widthError (p : Params) {w : Int} (l : List Nat) (h : w < 0 ∨ 8 ≤ w) :
    libraryDecode p w l = .error .widthError := by
  rw [libraryDecode, widthField_error h]

theorem expand_encodeFor_of_lt {w : Nat} (h : w < 8) : expand (.encodeFor w) = .ok [.wr .cmd (1 + 16 * w)] := by
  rw [expand, if_pos h, Nat.mul_comm]

theorem expand_decodeFor_of_lt {w : Nat} (h : w < 8) : expand (.decodeFor w) = .ok [.wr .cmd (2 + 16 * w)] := by
  rw [expand, if_pos h, Nat.mul_comm]

/-- A pseudo-instruction that stands for one write of CMD is assembled to that write (R102, R103). -/
theorem assemble_of_expand_cmd (p : Params) {q : Pseudo} {v : Nat} (hq : expand q = .ok [.wr .cmd v])
    (hv : v < 2 ^ 32) :
    assemble p [.pseudo q] = .ok [writeAccess p .cmd (BitVec.ofNat 32 v)] := by
  simp [assemble, linesOf, hq, assembleLines, assembleLine, immediate_of_lt hv]

/-- The word with WIDTH N and OP 1 or 2 is that of ENCODEN or DECODEN (R95). -/
theorem ofNat_digits_eq_encode (n : Width) :
    BitVec.ofNat 32 (1 + 16 * n.digits) = encode (encodeInstr n) ∧
      BitVec.ofNat 32 (2 + 16 * n.digits) = encode (decodeInstr n) := by
  cases n <;> exact ⟨rfl, rfl⟩

/-- The word of a command runs it (R98). -/
theorem execute_encode (s : State) (i : Instr) : execute s (encode i) = exec i s :=
  execute_of_decodeCmd s (decodeCmd_encode i)

/-- A WIDTH of 0, 6 or 7 with OP 1 or 2 commits BAD_WIDTH(w, 5) (R93, R96, R139, R158). -/
theorem execute_badWidth_selector (s : State) {op w : Nat} (hop : op = 1 ∨ op = 2) (hw : w = 0 ∨ w = 6 ∨ w = 7) :
    execute s (BitVec.ofNat 32 (op + 16 * w)) = .next (failure s 4#3 (BitVec.ofNat 32 w) 5#32 0#3) := by
  have hv : (BitVec.ofNat 32 (op + 16 * w)).toNat = op + 16 * w := by
    rw [BitVec.toNat_ofNat]
    omega
  have hwidth : (op + 16 * w) / 16 = w := by omega
  obtain ⟨-, hbad, -⟩ := illegalWordCommitsItsError s (BitVec.ofNat 32 (op + 16 * w))
  rw [hv, hwidth] at hbad
  exact hbad (by omega) (by omega) (by omega)

/-- Settles O56: above 7 the first check of assembler and library refuses, and below 8 the width stands in the word. -/
theorem widthSelectorIsStrict : Obligations.WidthSelectorIsStrict := by
  refine fun p s w => ⟨fun h => ?_, fun h => ⟨?_, ?_, ?_, fun hw => ?_⟩⟩
  · have hwide : (w : Int) < 0 ∨ 8 ≤ (w : Int) := by omega
    exact ⟨if_neg (by omega), if_neg (by omega), fun n => libraryEncode_widthError p n hwide,
      fun l => libraryDecode_widthError p l hwide⟩
  · exact assemble_of_expand_cmd p (expand_encodeFor_of_lt h) (by omega)
  · exact assemble_of_expand_cmd p (expand_decodeFor_of_lt h) (by omega)
  · rintro n rfl
    obtain ⟨henc, hdec⟩ := ofNat_digits_eq_encode n
    rw [henc, hdec]
    exact ⟨execute_encode s _, execute_encode s _⟩
  · exact ⟨execute_badWidth_selector s (.inl rfl) hw, execute_badWidth_selector s (.inr rfl) hw⟩

end Sys2Proof.Proofs

/-! PROOFS. The decoder (42_decode.md): what DECODEN commits on every operand, the value of a string of indices, and the
inverse laws of encoder and decoder. -/

namespace Sys2Proof.Proofs

open Sys2Proof.Machine Sys2Proof.Laws Sys2Proof.Claims

/-! ### Strings and their indices -/

/-- The string `l` consists of symbols, and `rs` are their indices, position by position (R113). -/
def HasIndices (l : List Byte) (rs : List (BitVec 6)) : Prop := List.Forall₂ (fun b r => REV b = some r) l rs

/-- Having indices is being the string of their symbols (R114). -/
theorem hasIndices_iff (l : List Byte) (rs : List (BitVec 6)) : HasIndices l rs ↔ l = rs.map SYM := by
  simp only [HasIndices, REV_eq_some_iff, eq_comm (a := SYM _)]
  rw [← List.forall₂_map_right_iff (f := SYM) (R := Eq), List.forall₂_eq_eq_eq]

theorem HasIndices.length_eq {l : List Byte} {rs : List (BitVec 6)} (h : HasIndices l rs) : l.length = rs.length :=
  List.Forall₂.length_eq h

/-- Every character of a string has an index exactly when the string has indices. -/
theorem forall_REV_ne_none_iff (l : List Byte) : (∀ b ∈ l, REV b ≠ none) ↔ ∃ rs, HasIndices l rs := by
  have hrange := Set.ext_iff.1 (Set.range_list_map SYM) l
  simp only [Set.mem_range, Set.mem_ofPred_eq, ← REV_eq_some_iff, ← Option.ne_none_iff_exists'] at hrange
  simp only [hasIndices_iff, eq_comm (a := l), hrange]

/-- A string with a character that has no index has a first one. -/
theorem exists_first_bad {l : List Byte} (h : ∃ b ∈ l, REV b = none) :
    ∃ before c after, l = before ++ c :: after ∧ (∀ b ∈ before, REV b ≠ none) ∧ REV c = none := by
  obtain ⟨b, hb, hrev⟩ := h
  have hsome := List.find?_isSome (p := fun b => (REV b).isNone).2 ⟨b, hb, Option.isNone_iff_eq_none.2 hrev⟩
  obtain ⟨c, hc⟩ := Option.isSome_iff_exists.1 hsome
  obtain ⟨hbad, before, after, hl, hbefore⟩ := List.find?_eq_some_iff_append.1 hc
  exact ⟨before, c, after, hl, fun d hd => by simpa [Option.isSome_iff_ne_none] using hbefore d hd,
    Option.isNone_iff_eq_none.1 hbad⟩

/-! ### The value of a string -/

/-- The word of a string of indices: the OR of each index shifted by six bits for every index after it (R150). -/
def wordOfIndices : List (BitVec 6) → Word
  | [] => 0#32
  | r :: rest => weigh r rest.length ||| wordOfIndices rest

/-- A weighed index ends below the next weight. -/
theorem toNat_weigh_lt (r : BitVec 6) (k : Nat) : (weigh r k).toNat < 2 ^ (6 * (k + 1)) := by
  rw [weigh, BitVec.toNat_shiftLeft, Nat.mul_succ, Nat.add_comm]
  exact (Nat.mod_le _ _).trans_lt (Nat.shiftLeft_lt (index_toNat_lt r))

theorem toNat_wordOfIndices_lt (rs : List (BitVec 6)) : (wordOfIndices rs).toNat < 2 ^ (6 * rs.length) := by
  induction rs with
  | nil => decide
  | cons r rest ih =>
    rw [wordOfIndices, BitVec.toNat_or, List.length_cons]
    exact Nat.or_lt_two_pow (toNat_weigh_lt r _) (ih.trans_le (Nat.pow_le_pow_right (by decide) (by omega)))

theorem le_maxValue_iff (w : Width) (n : Word) : n ≤ maxValue w ↔ n.toNat ≤ 2 ^ (6 * w.digits) - 1 := by
  rw [BitVec.le_def, toNat_maxValue]

/-- N indices make a value of at most 6N bits (R156). -/
theorem wordOfIndices_le_maxValue {w : Width} {rs : List (BitVec 6)} (h : rs.length = w.digits) :
    wordOfIndices rs ≤ maxValue w := by
  have hlt := toNat_wordOfIndices_lt rs
  rw [h] at hlt
  exact (le_maxValue_iff w _).2 (Nat.le_sub_one_of_lt hlt)

/-- Group j of an index weighed for position k: the index itself, or nothing. -/
theorem slice_weigh (r : BitVec 6) {k : Nat} (hk : k ≤ 4) (j : Nat) :
    (weigh r k).extractLsb' (6 * j) 6 = if j = k then r else 0#6 := by
  apply BitVec.eq_of_getLsbD_eq
  intro i hi
  simp only [weigh, BitVec.getLsbD_extractLsb', BitVec.getLsbD_shiftLeft, BitVec.getLsbD_setWidth, hi]
  rcases Nat.lt_trichotomy j k with hlt | rfl | hgt
  · simp [hlt.ne, show 6 * j + i < 6 * k by omega]
  · simp [show 6 * j + i < 32 by omega, hi, show i < 32 by omega]
  · simp [hgt.ne', BitVec.getLsbD_of_ge r (6 * j + i - 6 * k) (by omega)]

/-- A word has no group past its leading one. -/
theorem slice_wordOfIndices_length (rs : List (BitVec 6)) : (wordOfIndices rs).extractLsb' (6 * rs.length) 6 = 0#6 := by
  apply BitVec.eq_of_toNat_eq
  rw [BitVec.extractLsb'_toNat, Nat.shiftRight_eq_zero _ _ (toNat_wordOfIndices_lt rs)]
  rfl

/-- The k-th group from the left is the k-th index: no two indices of a string overlap (R150). -/
theorem slice_wordOfIndices {rs : List (BitVec 6)} (hlen : rs.length ≤ 5) {k : Nat} (hk : k < rs.length) :
    (wordOfIndices rs).extractLsb' (6 * (rs.length - 1 - k)) 6 = rs[k] := by
  induction rs generalizing k with
  | nil => nomatch hk
  | cons r rest ih =>
    rw [List.length_cons] at hlen hk
    rw [wordOfIndices, BitVec.extractLsb'_or, slice_weigh r (by omega), List.length_cons]
    cases k with
    | zero =>
      rw [if_pos (by omega), show rest.length + 1 - 1 - 0 = rest.length by omega, slice_wordOfIndices_length,
        BitVec.or_zero, List.getElem_cons_zero]
    | succ k =>
      rw [if_neg (by omega), BitVec.zero_or, show rest.length + 1 - 1 - (k + 1) = rest.length - 1 - k by omega,
        ih (by omega) (by omega), List.getElem_cons_succ]

/-- The groups of the word of N indices are these indices, so the encoder spells them out (R157). -/
theorem encodedString_wordOfIndices {w : Width} {rs : List (BitVec 6)} (h : rs.length = w.digits) :
    encodedString w (wordOfIndices rs) = rs.map SYM := by
  refine List.ext_getElem (by rw [length_encodedString, List.length_map, h]) fun k _ hk => ?_
  rw [List.length_map] at hk
  have hslice := slice_wordOfIndices (h ▸ digits_le_five w) hk
  simp only [encodedString, List.getElem_map, List.getElem_range, symAt, ← h, hslice]

/-- The indices of a value in width N: its six-bit groups, the most significant first (R132). -/
def indicesOf (w : Width) (n : Word) : List (BitVec 6) :=
  (List.range w.digits).map fun k => n.extractLsb' (6 * (w.digits - 1 - k)) 6

theorem length_indicesOf (w : Width) (n : Word) : (indicesOf w n).length = w.digits := by
  simp [indicesOf]

theorem map_SYM_indicesOf (w : Width) (n : Word) : (indicesOf w n).map SYM = encodedString w n :=
  List.map_map

theorem hasIndices_encodedString (w : Width) (n : Word) : HasIndices (encodedString w n) (indicesOf w n) :=
  (hasIndices_iff _ _).2 (map_SYM_indicesOf w n).symm

/-- A value in range is the word of its indices, since both have the same string (R157). -/
theorem wordOfIndices_indicesOf {w : Width} {n : Word} (h : n ≤ maxValue w) : wordOfIndices (indicesOf w n) = n := by
  have hlen := length_indicesOf w n
  refine eq_of_encodedString_eq (wordOfIndices_le_maxValue hlen) h (congrArg Chars.ofList ?_)
  rw [encodedString_wordOfIndices hlen, map_SYM_indicesOf]

/-! ### What DECODEN commits -/

theorem eq_widthWord_iff (w : Width) (x : Word) : x = widthWord w ↔ x.toNat = w.digits := by
  rw [← BitVec.toNat_inj]
  cases w <;> rfl

/-- The loop over a string with indices collects their word (R150). -/
theorem decodeChars_of_hasIndices {l : List Byte} {rs : List (BitVec 6)} (h : HasIndices l rs) (lim : Word) (pos : Nat)
    (acc : Word) : decodeChars lim pos acc l = .ok (acc ||| wordOfIndices rs) := by
  induction h generalizing pos acc with
  | nil => rw [decodeChars, wordOfIndices, BitVec.or_zero]
  | cons hr hrest ih =>
    simp only [decodeChars, hr, ih, wordOfIndices, weigh, hrest.length_eq, BitVec.or_assoc]

/-- The loop ends at the first character without an index (R150). -/
theorem decodeChars_of_first_bad {before : List Byte} {c : Byte} (hbefore : ∀ b ∈ before, REV b ≠ none)
    (hc : REV c = none) (after : List Byte) (lim : Word) (pos : Nat) (acc : Word) :
    decodeChars lim pos acc (before ++ c :: after) =
      .error { kind := .unknownSymbol, val := c.setWidth 32, lim := lim,
               pos := BitVec.ofNat 3 (pos + before.length) } := by
  induction before generalizing pos acc with
  | nil => simp only [List.nil_append, decodeChars, hc, List.length_nil, Nat.add_zero]
  | cons b before ih =>
    obtain ⟨r, hr⟩ := Option.ne_none_iff_exists'.1 (hbefore b List.mem_cons_self)
    simp only [List.cons_append, decodeChars, hr, ih fun d hd => hbefore d (List.mem_cons_of_mem b hd), List.length_cons,
      Nat.add_assoc, Nat.add_comm 1]

/-- A wrong length is INVALID_LENGTH, whatever the characters are (R150, R173). -/
theorem exec_decode_of_slen_ne {w : Width} {s : State} (h : s.operands.slen ≠ widthWord w) :
    exec (decodeInstr w) s = .next (failure s 2#3 s.operands.slen (widthWord w) 0#3) := by
  rw [exec_eq_commit, commandResults_decodeInstr, decodeN, if_pos h]
  rfl

/-- With the right length, the first character without an index is UNKNOWN_SYMBOL at its position (R150, R174). -/
theorem exec_decode_of_first_bad {w : Width} {s : State} {before after : List Byte} {c : Byte}
    (hslen : s.operands.slen = widthWord w) (hl : stringOperand s.operands w = before ++ c :: after)
    (hbefore : ∀ b ∈ before, REV b ≠ none) (hc : REV c = none) :
    exec (decodeInstr w) s =
      .next (failure s 3#3 (BitVec.ofNat 32 c.toNat) (widthWord w) (BitVec.ofNat 3 before.length)) := by
  rw [exec_eq_commit, commandResults_decodeInstr, decodeN, if_neg (not_not.2 hslen), hl,
    decodeChars_of_first_bad hbefore hc, Nat.zero_add, BitVec.ofNat_toNat]
  rfl

/-- With the right length, a string with indices is decoded to their word (R150). -/
theorem exec_decode_of_hasIndices {w : Width} {s : State} {rs : List (BitVec 6)}
    (hslen : s.operands.slen = widthWord w) (hl : HasIndices (stringOperand s.operands w) rs) :
    exec (decodeInstr w) s = .next (success s (wordOfIndices rs) 0#3 Chars.zero) := by
  rw [exec_eq_commit, commandResults_decodeInstr, decodeN, if_neg (not_not.2 hslen), decodeChars_of_hasIndices hl,
    BitVec.zero_or]
  rfl

theorem length_stringOperand_eq (o : Operands) (w : Width) : (stringOperand o w).length = w.digits := by
  cases w <;> rfl

/-- DECODEN never leaves more than 6N bits in DOUT: the word of N indices, or 0 after an error (R156). -/
theorem exec_decode_dout_le {w : Width} {s t : State} (h : exec (decodeInstr w) s = .next t) :
    t.results.dout ≤ maxValue w := by
  have hzero : 0#32 ≤ maxValue w := Nat.zero_le _
  by_cases hslen : s.operands.slen = widthWord w
  case neg =>
    obtain rfl := Host.Outcome.next.inj ((exec_decode_of_slen_ne hslen).symm.trans h)
    exact hzero
  by_cases hbad : ∃ b ∈ stringOperand s.operands w, REV b = none
  · obtain ⟨before, c, after, hl, hbefore, hc⟩ := exists_first_bad hbad
    obtain rfl := Host.Outcome.next.inj ((exec_decode_of_first_bad hslen hl hbefore hc).symm.trans h)
    exact hzero
  · obtain ⟨rs, hrs⟩ := (forall_REV_ne_none_iff _).1 fun b hb hrev => hbad ⟨b, hb, hrev⟩
    obtain rfl := Host.Outcome.next.inj ((exec_decode_of_hasIndices hslen hrs).symm.trans h)
    exact wordOfIndices_le_maxValue (hrs.length_eq.symm.trans (length_stringOperand_eq _ w))

/-! ### The five widths -/

/-- The last index of a string has weight 0: it is the word itself (R151). -/
theorem weigh_zero (r : BitVec 6) : weigh r 0 = BitVec.ofNat 32 r.toNat :=
  (BitVec.shiftLeft_zero _).trans (BitVec.ofNat_toNat 32 r).symm

/-- Settles O20: the three answers of DECODEN at width 1; INDEX_OF answers the same when the length is right. -/
theorem decode1Result : Obligations.Decode1Result := by
  refine ⟨rfl, fun s => ?_⟩
  have hbad := fun h h0 => exec_decode_of_first_bad (w := .w1) (s := s) (before := []) h rfl (by simp) h0
  have hok : ∀ r0, s.operands.slen = 1#32 → REV s.operands.sin.c0 = some r0 →
      exec .decode1 s = .next (success s (weigh r0 0) 0#3 Chars.zero) := fun r0 h h0 =>
    (exec_decode_of_hasIndices (w := .w1) h (.cons h0 .nil)).trans (by simp [wordOfIndices])
  refine ⟨exec_decode_of_slen_ne (w := .w1), hbad, hok, fun h => ?_⟩
  cases h0 : REV s.operands.sin.c0 with
  | none => exact (hbad h h0).trans (exec_indexOf_of_none h0).symm
  | some r0 => rw [hok r0 h h0, exec_indexOf_of_some h0, weigh_zero]

/-- Settles O21: the answers of DECODEN at width 2, by the first position without an index. -/
theorem decode2Result : Obligations.Decode2Result :=
  ⟨rfl, fun s => ⟨exec_decode_of_slen_ne (w := .w2),
    fun h h0 => exec_decode_of_first_bad (w := .w2) (before := []) h rfl (by simp) h0,
    fun h h0 h1 => exec_decode_of_first_bad (w := .w2) (before := [_]) h rfl (by simp [h0]) h1,
    fun r0 r1 h h0 h1 => (exec_decode_of_hasIndices (w := .w2) h (.cons h0 (.cons h1 .nil))).trans
      (by simp [wordOfIndices])⟩⟩

/-- Settles O22: the answers of DECODEN at width 3, by the first position without an index. -/
theorem decode3Result : Obligations.Decode3Result :=
  ⟨rfl, fun s => ⟨exec_decode_of_slen_ne (w := .w3),
    fun h h0 => exec_decode_of_first_bad (w := .w3) (before := []) h rfl (by simp) h0,
    fun h h0 h1 => exec_decode_of_first_bad (w := .w3) (before := [_]) h rfl (by simp [h0]) h1,
    fun h h0 h1 h2 => exec_decode_of_first_bad (w := .w3) (before := [_, _]) h rfl (by simp [h0, h1]) h2,
    fun r0 r1 r2 h h0 h1 h2 => (exec_decode_of_hasIndices (w := .w3) h (.cons h0 (.cons h1 (.cons h2 .nil)))).trans
      (by simp [wordOfIndices, BitVec.or_assoc])⟩⟩

/-- Settles O23: the answers of DECODEN at width 4, by the first position without an index. -/
theorem decode4Result : Obligations.Decode4Result :=
  ⟨rfl, fun s => ⟨exec_decode_of_slen_ne (w := .w4),
    fun h h0 => exec_decode_of_first_bad (w := .w4) (before := []) h rfl (by simp) h0,
    fun h h0 h1 => exec_decode_of_first_bad (w := .w4) (before := [_]) h rfl (by simp [h0]) h1,
    fun h h0 h1 h2 => exec_decode_of_first_bad (w := .w4) (before := [_, _]) h rfl (by simp [h0, h1]) h2,
    fun h h0 h1 h2 h3 => exec_decode_of_first_bad (w := .w4) (before := [_, _, _]) h rfl (by simp [h0, h1, h2]) h3,
    fun r0 r1 r2 r3 h h0 h1 h2 h3 =>
      (exec_decode_of_hasIndices (w := .w4) h (.cons h0 (.cons h1 (.cons h2 (.cons h3 .nil))))).trans
        (by simp [wordOfIndices, BitVec.or_assoc])⟩⟩

/-- Settles O24: the answers of DECODEN at width 5, by the first position without an index; the limit of the width keeps
the two top bits of DOUT clear. -/
theorem decode5Result : Obligations.Decode5Result :=
  ⟨rfl, fun s => ⟨exec_decode_of_slen_ne (w := .w5),
    fun h h0 => exec_decode_of_first_bad (w := .w5) (before := []) h rfl (by simp) h0,
    fun h h0 h1 => exec_decode_of_first_bad (w := .w5) (before := [_]) h rfl (by simp [h0]) h1,
    fun h h0 h1 h2 => exec_decode_of_first_bad (w := .w5) (before := [_, _]) h rfl (by simp [h0, h1]) h2,
    fun h h0 h1 h2 h3 => exec_decode_of_first_bad (w := .w5) (before := [_, _, _]) h rfl (by simp [h0, h1, h2]) h3,
    fun h h0 h1 h2 h3 h4 =>
      exec_decode_of_first_bad (w := .w5) (before := [_, _, _, _]) h rfl (by simp [h0, h1, h2, h3]) h4,
    fun r0 r1 r2 r3 r4 h h0 h1 h2 h3 h4 =>
      (exec_decode_of_hasIndices (w := .w5) h (.cons h0 (.cons h1 (.cons h2 (.cons h3 (.cons h4 .nil)))))).trans
        (by simp [wordOfIndices, BitVec.or_assoc]),
    fun t h => of_not_not fun htop =>
      BitVec.not_lt.2 (exec_decode_dout_le (w := .w5) h) ((lt_iff_top_slice_ne_zero _).2 htop)⟩⟩

/-! ### The lowest bad position -/

/-- Position k of the string operand is SIN[k] (R94). -/
theorem getD_stringOperand (o : Operands) {w : Width} {k : Nat} (h : k < w.digits) :
    (stringOperand o w).getD k 0#8 = o.sin.toList.getD k 0#8 := by
  rw [stringOperand, List.getD_eq_getElem?_getD, List.getElem?_take_of_lt h, List.getD_eq_getElem?_getD]

/-- Settles O25: the string splits at its first character without an index, whose position is the length before it. -/
theorem unknownSymbolIsTheLowestPosition : Obligations.UnknownSymbolIsTheLowestPosition := by
  intro w s hslen hbad
  obtain ⟨before, c, after, hl, hbefore, hc⟩ := exists_first_bad (l := stringOperand s.operands w) hbad
  have hlt : before.length < w.digits := by
    rw [← length_stringOperand_eq s.operands w, hl, List.length_append, List.length_cons]
    omega
  have hpos : (BitVec.ofNat 3 before.length).toNat = before.length := by
    have := digits_le_five w
    rw [BitVec.toNat_ofNat]
    omega
  have hchar : s.operands.sin.toList.getD before.length 0#8 = c := by
    rw [← getD_stringOperand _ hlt, hl, List.getD_append_right _ _ _ _ le_rfl, Nat.sub_self, List.getD_cons_zero]
  refine ⟨_, exec_decode_of_first_bad ((eq_widthWord_iff w _).2 hslen) hl hbefore hc, rfl, ?_⟩
  simp only [Claims.failure, hpos, hchar]
  refine ⟨hlt, hc, fun j hj => ?_, ?_, (eq_widthWord_iff w _).1 rfl⟩
  · rw [← getD_stringOperand _ (hj.trans hlt), hl, List.getD_append _ _ _ _ hj, List.getD_eq_getElem _ _ hj]
    exact hbefore _ (List.getElem_mem hj)
  · rw [BitVec.ofNat_toNat, BitVec.toNat_setWidth_of_le (by decide)]

/-! ### Encoder and decoder are inverse -/

/-- A valid string of width N has N indices (R156). -/
theorem exists_hasIndices_of_validString {w : Width} {l : List Byte} (h : ValidString w l) :
    ∃ rs, HasIndices l rs ∧ rs.length = w.digits := by
  obtain ⟨hlen, hrev⟩ := h
  obtain ⟨rs, hrs⟩ := (forall_REV_ne_none_iff l).1 hrev
  exact ⟨rs, hrs, hrs.length_eq.symm.trans hlen⟩

theorem validString_encodedString (w : Width) (n : Word) : ValidString w (encodedString w n) :=
  ⟨length_encodedString w n, (forall_REV_ne_none_iff _).2 ⟨_, hasIndices_encodedString w n⟩⟩

/-- The first N characters of SIN or SOUT, when they hold a string of N characters. -/
theorem take_toList_ofList {w : Width} {l : List Byte} (h : l.length = w.digits) :
    (Chars.ofList l).toList.take w.digits = l := by
  have hget := getD_toList_ofList (h.trans_le (digits_le_five w))
  refine List.ext_getElem (by rw [List.length_take, h]; exact min_eq_left (digits_le_five w)) fun k hk hk' => ?_
  rw [List.getElem_take, ← List.getD_eq_getElem _ 0#8, hget, List.getD_eq_getElem _ _ hk']

/-- DECODEN of the string of a value in range gives the value (R157). -/
theorem exec_decode_encodedString {w : Width} {s : State} {n : Word} (hslen : s.operands.slen = widthWord w)
    (hl : stringOperand s.operands w = encodedString w n) (hn : n ≤ maxValue w) :
    exec (decodeInstr w) s = .next (success s n 0#3 Chars.zero) := by
  rw [exec_decode_of_hasIndices hslen (hl ▸ hasIndices_encodedString w n), wordOfIndices_indicesOf hn]

/-- Only the string of a value is decoded to it, at any state that holds the string (R156). -/
theorem eq_encodedString_of_exec_decode {w : Width} {s : State} {n : Word} (hslen : s.operands.slen = widthWord w)
    (hvalid : ValidString w (stringOperand s.operands w))
    (hexec : exec (decodeInstr w) s = .next (success s n 0#3 Chars.zero)) :
    stringOperand s.operands w = encodedString w n := by
  obtain ⟨rs, hrs, hlen⟩ := exists_hasIndices_of_validString hvalid
  have hsame := Host.Outcome.next.inj ((exec_decode_of_hasIndices hslen hrs).symm.trans hexec)
  have hdout : wordOfIndices rs = n := congrArg (fun t => t.results.dout) hsame
  rw [← hdout, encodedString_wordOfIndices hlen, ← (hasIndices_iff _ _).1 hrs]

/-- A state with a string of width N in SIN and the length N in SLEN. -/
def stringState (w : Width) (l : List Byte) : State :=
  { State.reset with operands := { Operands.reset with slen := widthWord w, sin := Chars.ofList l } }

/-- Settles O26: the value of a string is bounded by its length, and its string in width N is the only one. -/
theorem decodeIsABijection : Obligations.DecodeIsABijection := by
  refine ⟨fun w s t hexec _ => (le_maxValue_iff w _).1 (exec_decode_dout_le hexec), fun w s hslen hvalid => ?_,
    fun w v hv => ⟨encodedString w v, ⟨validString_encodedString w v, fun s hslen hl => ?_⟩, ?_⟩⟩
  · obtain ⟨rs, hrs, -⟩ := exists_hasIndices_of_validString hvalid
    exact ⟨_, exec_decode_of_hasIndices ((eq_widthWord_iff w _).2 hslen) hrs, rfl⟩
  · exact exec_decode_encodedString ((eq_widthWord_iff w _).2 hslen) hl ((le_maxValue_iff w v).2 hv)
  · rintro l ⟨hvalid, hdecode⟩
    have hl : stringOperand (stringState w l).operands w = l := take_toList_ofList hvalid.1
    rw [← hl]
    exact eq_encodedString_of_exec_decode rfl (hl.symm ▸ hvalid)
      (hdecode (stringState w l) ((eq_widthWord_iff w _).1 rfl) hl)

/-- The two character registers, copied word by word, carry all five characters (R31, R157). -/
theorem setWord1_setWord0_words (c d : Chars) : (c.setWord0 d.word0).setWord1 d.word1 = d := by
  have h1 : lane d.word1 0 = d.c4 := by
    apply BitVec.eq_of_toNat_eq
    rw [lane, BitVec.extractLsb'_toNat, toNat_word1]
    exact Nat.mod_eq_of_lt d.c4.isLt
  simp (disch := decide) only [Chars.setWord0, Chars.setWord1, h1, lane_word0]
  rfl

/-- Settles O27: the copied registers hold the string, or the value, that the first command left. -/
theorem encodeDecodeRoundTrip : Obligations.EncodeDecodeRoundTrip := by
  refine ⟨fun w s hdin => ?_, fun w s hslen hvalid => ?_⟩
  · have hle := (le_maxValue_iff w _).2 hdin
    refine ⟨_, _, _, _, _, exec_encode_of_le hle, rfl, rfl, rfl,
      exec_decode_encodedString rfl ?_ hle, rfl, memRead_status_success _ _ _ _⟩
    have hcopy := setWord1_setWord0_words s.operands.sin (Chars.ofList (encodedString w s.operands.din))
    exact (congrArg (fun c => c.toList.take w.digits) hcopy).trans (take_toList_ofList (length_encodedString w _))
  · obtain ⟨rs, hrs, hlen⟩ := exists_hasIndices_of_validString hvalid
    refine ⟨_, _, _, exec_decode_of_hasIndices ((eq_widthWord_iff w _).2 hslen) hrs, rfl,
      exec_encode_of_le (wordOfIndices_le_maxValue hlen), memRead_status_success _ _ _ _, ?_⟩
    calc (Chars.ofList (encodedString w (wordOfIndices rs))).toList.take w.digits
        = encodedString w (wordOfIndices rs) := take_toList_ofList (length_encodedString w _)
      _ = rs.map SYM := encodedString_wordOfIndices hlen
      _ = s.operands.sin.toList.take w.digits := ((hasIndices_iff _ _).1 hrs).symm

end Sys2Proof.Proofs

/-! PROOFS. Errors (60_exceptions.md): the error code that every command word leaves, and the accesses of the window
that get a bus error. -/

namespace Sys2Proof.Proofs

open Sys2Proof.Machine Sys2Proof.Safety Sys2Proof.Laws Sys2Proof.Claims

/-! ### The error code of each command -/

/-- ENCODEN has one check, the range of DIN (R132). -/
theorem exec_encode_errCode (w : Width) (s : State) :
    ∃ t, exec (encodeInstr w) s = .next t ∧
      t.results.errCode = if 2 ^ (6 * w.digits) ≤ s.operands.din.toNat then 1#3 else 0#3 := by
  have hrange : maxValue w < s.operands.din ↔ 2 ^ (6 * w.digits) ≤ s.operands.din.toNat := by
    have hpos : 0 < 2 ^ (6 * w.digits) := Nat.two_pow_pos _
    rw [← BitVec.not_le, le_maxValue_iff]
    omega
  by_cases h : maxValue w < s.operands.din
  · exact ⟨_, exec_encode_of_lt h, (if_pos (hrange.1 h)).symm⟩
  · exact ⟨_, exec_encode_of_le (BitVec.not_lt.1 h), (if_neg (mt hrange.2 h)).symm⟩

/-- DECODEN checks the length before the characters (R150, R179). -/
theorem exec_decode_errCode (w : Width) (s : State) :
    ∃ t, exec (decodeInstr w) s = .next t ∧
      t.results.errCode =
        if s.operands.slen.toNat ≠ w.digits then 2#3
        else if ∃ b ∈ s.operands.sin.toList.take w.digits, REV b = none then 3#3 else 0#3 := by
  by_cases hlen : s.operands.slen = widthWord w
  case neg =>
    exact ⟨_, exec_decode_of_slen_ne hlen, (if_pos (mt (eq_widthWord_iff w _).2 hlen)).symm⟩
  rw [if_neg (not_not.2 ((eq_widthWord_iff w _).1 hlen))]
  by_cases hbad : ∃ b ∈ s.operands.sin.toList.take w.digits, REV b = none
  · obtain ⟨before, c, after, hl, hbefore, hc⟩ := exists_first_bad hbad
    exact ⟨_, exec_decode_of_first_bad hlen hl hbefore hc, (if_pos hbad).symm⟩
  · obtain ⟨rs, hrs⟩ := (forall_REV_ne_none_iff _).1 fun b hb hrev => hbad ⟨b, hb, hrev⟩
    exact ⟨_, exec_decode_of_hasIndices hlen hrs, (if_neg hbad).symm⟩

/-- SYMBOL_AT has one check, the range of DIN (R117). -/
theorem exec_symbolAt_errCode (s : State) :
    ∃ t, exec .symbolAt s = .next t ∧ t.results.errCode = if 63 < s.operands.din.toNat then 1#3 else 0#3 := by
  by_cases h : 63#32 < s.operands.din
  · exact ⟨_, exec_symbolAt_of_lt h, (if_pos (BitVec.lt_def.1 h)).symm⟩
  · exact ⟨_, exec_symbolAt_of_le (BitVec.not_lt.1 h), (if_neg (mt BitVec.lt_def.2 h)).symm⟩

/-- INDEX_OF has one check, the index of SIN[0] (R118). -/
theorem exec_indexOf_errCode (s : State) :
    ∃ t, exec .indexOf s = .next t ∧ t.results.errCode = if REV s.operands.sin.c0 = none then 3#3 else 0#3 := by
  cases h : REV s.operands.sin.c0 with
  | none => exact ⟨_, exec_indexOf_of_none h, (if_pos rfl).symm⟩
  | some r => exact ⟨_, exec_indexOf_of_some h, (if_neg (Option.some_ne_none r)).symm⟩

/-! ### The error code of each word -/

/-- Every command is an ENCODEN, a DECODEN, SYMBOL_AT or INDEX_OF (R95). -/
theorem instr_cases (i : Instr) :
    (∃ w, i = encodeInstr w) ∨ (∃ w, i = decodeInstr w) ∨ i = .symbolAt ∨ i = .indexOf := by
  cases i with
  | encode1 => exact .inl ⟨.w1, rfl⟩
  | encode2 => exact .inl ⟨.w2, rfl⟩
  | encode3 => exact .inl ⟨.w3, rfl⟩
  | encode4 => exact .inl ⟨.w4, rfl⟩
  | encode5 => exact .inl ⟨.w5, rfl⟩
  | decode1 => exact .inr (.inl ⟨.w1, rfl⟩)
  | decode2 => exact .inr (.inl ⟨.w2, rfl⟩)
  | decode3 => exact .inr (.inl ⟨.w3, rfl⟩)
  | decode4 => exact .inr (.inl ⟨.w4, rfl⟩)
  | decode5 => exact .inr (.inl ⟨.w5, rfl⟩)
  | symbolAt => exact .inr (.inr (.inl rfl))
  | indexOf => exact .inr (.inr (.inr rfl))

/-- OP and WIDTH of the word of ENCODEN (R95). -/
theorem opWidth_encode_encodeInstr (w : Width) :
    (encode (encodeInstr w)).toNat % 16 = 1 ∧ (encode (encodeInstr w)).toNat / 16 % 8 = w.digits := by
  cases w <;> decide

/-- OP and WIDTH of the word of DECODEN (R95). -/
theorem opWidth_encode_decodeInstr (w : Width) :
    (encode (decodeInstr w)).toNat % 16 = 2 ∧ (encode (decodeInstr w)).toNat / 16 % 8 = w.digits := by
  cases w <;> decide

/-- Settles O4: the words of the decoder's two refusals first, then each command's own checks. -/
theorem errorCodeOfEveryCommandWord : Obligations.ErrorCodeOfEveryCommandWord := by
  intro s v
  obtain ⟨hopcode, hwidth, htable, hlegal⟩ := illegalWordCommitsItsError s v
  by_cases h5 : v.toNat / 128 ≠ 0 ∨ v.toNat % 16 = 0 ∨ 4 < v.toNat % 16
  · exact ⟨_, hopcode h5, (if_pos h5).symm⟩
  rw [if_neg h5]
  by_cases h4 : v.toNat % 16 ≤ 2 ∧ (v.toNat / 16 % 8 = 0 ∨ 5 < v.toNat / 16 % 8)
  · exact ⟨_, hwidth (by omega) (by omega) (by omega), (if_pos h4).symm⟩
  rw [if_neg h4]
  by_cases h4' : 3 ≤ v.toNat % 16 ∧ v.toNat / 16 % 8 ≠ 0
  · exact ⟨_, htable (by omega) (by omega) (by omega), (if_pos h4').symm⟩
  rw [if_neg h4']
  obtain ⟨i, rfl, hexec⟩ := hlegal (by omega) (by omega)
  rw [hexec]
  rcases instr_cases i with ⟨w, rfl⟩ | ⟨w, rfl⟩ | rfl | rfl
  · obtain ⟨hop, hw⟩ := opWidth_encode_encodeInstr w
    simpa [hop, hw] using exec_encode_errCode w s
  · obtain ⟨hop, hw⟩ := opWidth_encode_decodeInstr w
    simpa [hop, hw] using exec_decode_errCode w s
  · have hop : (encode .symbolAt).toNat % 16 = 3 := rfl
    simpa [hop] using exec_symbolAt_errCode s
  · have hop : (encode .indexOf).toNat % 16 = 4 := rfl
    simpa [hop] using exec_indexOf_errCode s

/-! ### The accesses that get a bus error -/

/-- An access passes the checks exactly when it is 32 bits wide with all byte enables, at a register's offset (R64 to
R66). -/
theorem admitAccess_eq_ok_iff (a : Access) (o : Nat) (r : Reg) :
    admitAccess a o = .ok r ↔ (a.size = 4 ∧ a.byteEnables = 0xF#4) ∧ o = r.offset := by
  constructor
  · intro h
    refine ⟨?_, admitAccess_ok_offset h⟩
    by_contra hfull
    rw [admitAccess_partial o (by rwa [← not_and_or])] at h
    cases h
  · rintro ⟨⟨hs, hb⟩, rfl⟩
    simp [admitAccess, hs, hb, (offset_mem_ranges r).1, regAt_offset]

/-- MemWrite performs exactly the writes of the writable registers (R67, R70). -/
theorem memWrite_next_iff (s : State) (v : Word) (r : Reg) :
    (∃ t, memWrite s v r = .ok (.next t)) ↔ writable r = true := by
  cases hr : writable r with
  | false => simp [memWrite_readOnly s v hr]
  | true =>
    cases r with
    | cmd => exact iff_of_true ⟨_, congrArg Except.ok (execute_eq_commit s v)⟩ rfl
    | din | slen | sin0 | sin1 => exact iff_of_true ⟨_, rfl⟩ rfl
    | _ => cases hr

/-- The block answers a next state to exactly the served accesses of its window (R177). -/
theorem respond_next_iff_served (s : State) {a : Access} (hb : s.params.base ≤ a.addr) :
    (∃ t, respond s a (a.addr - s.params.base) = .ok (.next t)) ↔ served s.params a := by
  constructor
  · rintro ⟨t, ht⟩
    obtain ⟨r, hadm, hkind⟩ := respond_next ht
    obtain ⟨⟨hs, hbe⟩, ho⟩ := (admitAccess_eq_ok_iff _ _ _).1 hadm
    refine ⟨r, by omega, hs, hbe, fun v hv => ?_⟩
    rcases hkind with ⟨hread, -⟩ | ⟨u, -, hw⟩
    · cases hv.symm.trans hread
    · exact (memWrite_next_iff s u r).1 ⟨t, hw⟩
  · rintro ⟨r, haddr, hs, hbe, hwr⟩
    have hadm := (admitAccess_eq_ok_iff a (a.addr - s.params.base) r).2 ⟨⟨hs, hbe⟩, by omega⟩
    cases hk : a.kind with
    | read => exact ⟨{ s with reads := s.reads ++ [memRead s r] }, by simp only [respond, hadm, hk]⟩
    | write v => simpa only [respond, hadm, hk] using (memWrite_next_iff s v r).2 (hwr v hk)

/-- What the step does with an arriving access of the window: one that is served ends no program, and any other ends the
program that issued it (R177, R178). -/
theorem step_of_window {s : State} {a : Access} {rest : List Event} (hb : s.params.base ≤ a.addr)
    (he : a.addr < s.params.base + 256) (h : Arrives s (.access a) rest) :
    (served s.params a ∧ ∃ t, step s = .next t ∧ t.faults = s.faults) ∨
      (¬ served s.params a ∧ ∃ c, step s = .next (programFaulted s a.host c (refusedData a.kind) rest)) := by
  have hiff := respond_next_iff_served { s with pending := rest } hb
  have hstep := (step_access h.1 h.2).trans (hostAccess_window (s := { s with pending := rest }) hb he)
  rcases respond_cases { s with pending := rest } a (a.addr - s.params.base) with ⟨c, hc⟩ | ⟨t, ht⟩
  · rw [hc] at hstep
    refine .inr ⟨fun hserved => ?_, c, hstep.trans (congrArg _ (busError_eq_programFaulted s a c rest))⟩
    obtain ⟨t, ht⟩ := hiff.2 hserved
    cases hc.symm.trans ht
  · rw [ht] at hstep
    obtain ⟨-, hfaults, -⟩ := respond_frame ht
    exact .inl ⟨hiff.1 ⟨t, ht⟩, t, hstep, hfaults⟩

/-- The end of a program is recorded (R178). -/
theorem programFaulted_faults_ne (s : State) (h : Nat) (c : BusErrorCause) (d : Option Word) (rest : List Event) :
    (programFaulted s h c d rest).faults ≠ s.faults := by
  simp [programFaulted]

/-- Settles O36: a step cannot both end a program and record none. -/
theorem busErrorExactlyWhenNotServed : Obligations.BusErrorExactlyWhenNotServed := by
  intro s a rest hb he h
  rcases step_of_window hb he h with ⟨hserved, t, ht, hfaults⟩ | ⟨hserved, c, hc⟩
  · refine ⟨iff_of_false ?_ (not_not.2 hserved), iff_of_true ⟨t, ht, hfaults⟩ hserved⟩
    rintro ⟨c, d, hc⟩
    obtain rfl := Host.Outcome.next.inj (ht.symm.trans hc)
    exact programFaulted_faults_ne s a.host c d rest hfaults
  · refine ⟨iff_of_true ⟨c, _, hc⟩ hserved, iff_of_false ?_ hserved⟩
    rintro ⟨t, ht, hfaults⟩
    obtain rfl := Host.Outcome.next.inj (hc.symm.trans ht)
    exact programFaulted_faults_ne s a.host c _ rest hfaults

end Sys2Proof.Proofs

/-! PROOFS. Reset, hazards and the host's side (70_reset_and_hazards.md): an access during reset, the first commands
after it, runs of whole queues and of one host's program, and what the host library asks and reports. -/

namespace Sys2Proof.Proofs

open Sys2Proof.Machine Sys2Proof.Safety Sys2Proof.Laws Sys2Proof.Claims

/-! ### Reset -/

/-- Settles O52: an access that arrives while reset is asserted is the machine's one fault. -/
theorem accessDuringResetHasNoStep : Obligations.AccessDuringResetHasNoStep := by
  intro s a rest hq hp
  rw [step_cons hq]
  simp only [arrive, hp]

/-- Settles O53: DIN 0 is in range of width 1, SLEN 0 is not 1, and the code 0x00 has no index. -/
theorem firstCommandAfterReset : Obligations.FirstCommandAfterReset := by
  rintro s ⟨ho, -, -⟩
  have hencode := exec_encode_of_le (w := .w1) (s := s) (by rw [ho]; decide)
  have hdecode := exec_decode_of_slen_ne (w := .w1) (s := s) (by rw [ho]; decide)
  have hindex := exec_indexOf_of_none (s := s) (by rw [ho]; decide)
  rw [ho] at hencode hdecode hindex
  exact ⟨hencode, hdecode, hindex⟩

/-! ### A read after a command -/

/-- MemRead depends on the storage alone (R69). -/
theorem memRead_congr {s t : State} (ho : s.operands = t.operands) (hr : s.results = t.results) (r : Reg) :
    memRead s r = memRead t r := by
  cases r <;> simp only [memRead, ho, hr]

/-- Settles O44: the first step commits the results of the word, and the second reads from that state. -/
theorem readAfterCommandSeesItsResult : Obligations.ReadAfterCommandSeesItsResult := by
  intro s h k v r rest harr
  have hcmd := (step_write (r := .cmd) harr rfl).trans (execute_eq_commit _ v)
  have hread := step_read (s := { s with pending := .access (fullAccess s k .read r.offset) :: rest }.commit
    (wordResults v s.operands)) (h := k) (r := r) (rest := rest) ⟨rfl, harr.2⟩
  refine ⟨_, _, _, execute_eq_commit s v, hcmd, hread, ?_, rfl, rfl, rfl, rfl⟩
  exact congrArg (fun x => s.reads ++ [x]) (memRead_congr rfl rfl r)

/-! ### What the block does not look at -/

/-- `f` changes only what the answer to an access does not depend on: it keeps the storage and BASE, and commutes with
each update of the storage and of the values read. -/
structure KeepsStorage (f : State → State) : Prop where
  base : ∀ s, (f s).params.base = s.params.base
  operands : ∀ s, (f s).operands = s.operands
  results : ∀ s, (f s).results = s.results
  setOperands : ∀ s o, f { s with operands := o } = { f s with operands := o }
  commit : ∀ s r, f (s.commit r) = (f s).commit r
  addRead : ∀ s v, f { s with reads := s.reads ++ [v] } = { f s with reads := (f s).reads ++ [v] }

section

variable {f : State → State} (hf : KeepsStorage f)
include hf

theorem KeepsStorage.memRead (s : State) (r : Reg) : memRead (f s) r = memRead s r :=
  memRead_congr (hf.operands s) (hf.results s) r

theorem KeepsStorage.memWrite (s : State) (v : Word) (r : Reg) :
    memWrite (f s) v r = (memWrite s v r).map (mapNext f) := by
  cases hr : writable r with
  | false =>
    rw [memWrite_readOnly _ v hr, memWrite_readOnly _ v hr]
    rfl
  | true =>
    cases r with
    | cmd =>
      simp only [Machine.memWrite, execute_eq_commit, hf.operands, ← hf.commit]
      rfl
    | din | slen | sin0 | sin1 =>
      simp only [Machine.memWrite, hf.operands, ← hf.setOperands]
      rfl
    | _ => cases hr

theorem KeepsStorage.respond (s : State) (a : Access) (o : Nat) :
    respond (f s) a o = (respond s a o).map (mapNext f) := by
  unfold Machine.respond
  cases admitAccess a o with
  | error c => rfl
  | ok r =>
    cases a.kind with
    | read =>
      simp only [hf.memRead, ← hf.addRead]
      rfl
    | write v => exact hf.memWrite s v r

/-- An access is performed alike on both sides of `f`, if its bus error is. -/
theorem KeepsStorage.hostAccess {s : State} {a : Access}
    (h : ∀ o c, windowOffset s.params a.addr = some o → Machine.respond s a o = .error c →
      (f s).busError a c = f (s.busError a c)) :
    hostAccess (f s) a = mapNext f (hostAccess s a) := by
  have hwindow : windowOffset (f s).params a.addr = windowOffset s.params a.addr := by
    simp only [windowOffset, hf.base]
  simp only [Machine.hostAccess, hwindow, hf.respond]
  cases ho : windowOffset s.params a.addr with
  | none => rfl
  | some o =>
    dsimp only
    cases hr : Machine.respond s a o with
    | error c => exact congrArg Host.Outcome.next (h o c ho hr)
    | ok out => rfl

end

/-! ### RESET_KIND is not observable -/

theorem withResetKind_resetPhase (k : ResetKind) (s : State) : (withResetKind k s).resetPhase = s.resetPhase := rfl

theorem keepsStorage_withResetKind (k : ResetKind) : KeepsStorage (withResetKind k) :=
  ⟨fun _ => rfl, fun _ => rfl, fun _ => rfl, fun _ _ => rfl, fun _ _ => rfl, fun _ _ => rfl⟩

theorem powerUp_withResetKind (k : ResetKind) (s : State) :
    (withResetKind k s).powerUp = withResetKind k s.powerUp := by
  simp only [State.powerUp, withResetKind_resetPhase]
  cases s.resetPhase <;> rfl

/-- An event arrives alike under every RESET_KIND (R200). -/
theorem arrive_withResetKind (k : ResetKind) (s : State) (e : Event) :
    arrive (withResetKind k s) e = mapNext (withResetKind k) (arrive s e) := by
  cases e with
  | access a =>
    have hacc := (keepsStorage_withResetKind k).hostAccess (s := s) (a := a) fun _ _ _ _ => rfl
    simp only [arrive, withResetKind_resetPhase, hacc]
    cases s.resetPhase <;> rfl
  | resetAssert => rfl
  | resetRelease =>
    simp only [arrive, withResetKind_resetPhase]
    cases s.resetPhase <;> rfl
  | powerUp => exact congrArg Host.Outcome.next (powerUp_withResetKind k s)

/-- Settles O55: an idle step keeps the state, and no event's arrival reads RESET_KIND. -/
theorem resetKindIsNotObservable : Obligations.ResetKindIsNotObservable := by
  intro s k
  cases hq : s.pending with
  | nil =>
    have hidle : step s = .next s := by simp only [step, hq]
    have hidle' : step (withResetKind k s) = .next (withResetKind k s) := by simp only [step, withResetKind, hq]
    rw [hidle, hidle']
  | cons e rest =>
    rw [step_cons hq, step_cons (s := withResetKind k s) hq]
    exact arrive_withResetKind k { s with pending := rest } e

/-! ### Runs of a queue -/

theorem run_step {s t : State} (h : step s = .next t) (k : Nat) :
    Sys2Proof.core.run (k + 1) s = Sys2Proof.core.run k t :=
  run_succ Sys2Proof.core k h

/-- An access at an address of the window (R60). -/
def InWindow (p : Params) (a : Access) : Prop := p.base ≤ a.addr ∧ a.addr < p.base + 256

/-- A served access of the window ends no program, and keeps all but the storage and the reads, which are longer by one
if it is a read (R69, R70). -/
structure ServedStep (s : State) (a : Access) (rest : List Event) (t : State) : Prop where
  pending : t.pending = rest
  faults : t.faults = s.faults
  resetPhase : t.resetPhase = s.resetPhase
  params : t.params = s.params
  reads : s.reads <+: t.reads
  readCount : t.reads.length = s.reads.length + if a.kind = .read then 1 else 0

theorem servedStep_of_respond {s t : State} {a : Access} {rest : List Event} {o : Nat}
    (h : respond { s with pending := rest } a o = .ok (.next t)) : ServedStep s a rest t := by
  obtain ⟨hq, hf, hp, hpar, -⟩ := respond_frame h
  obtain ⟨r, -, ⟨hk, rfl⟩ | ⟨v, hk, hw⟩⟩ := respond_next h
  · exact ⟨hq, hf, hp, hpar, List.prefix_append _ _, by simp [hk]⟩
  · have hreads : t.reads = s.reads := by
      rcases memWrite_next hw with ⟨-, rfl⟩ | ⟨-, rfl⟩ | ⟨-, rfl⟩ | ⟨-, rfl⟩ | ⟨-, rfl⟩ <;> rfl
    exact ⟨hq, hf, hp, hpar, hreads ▸ List.prefix_rfl, by simp [hk, hreads]⟩

/-- The block answers a served access with a next state (R177). -/
theorem respond_of_served {s : State} {a : Access} {o : Nat} (hs : served s.params a)
    (ho : windowOffset s.params a.addr = some o) : ∃ t, respond s a o = .ok (.next t) := by
  have haddr := windowOffset_some ho
  rw [show o = a.addr - s.params.base by omega]
  exact (respond_next_iff_served s (by omega)).2 hs

/-- The step of an arriving access of the window that is served. -/
theorem step_of_served {s : State} {a : Access} {rest : List Event} (h : Arrives s (.access a) rest)
    (hs : served s.params a) : ∃ t, step s = .next t ∧ ServedStep s a rest t := by
  have ⟨r, haddr, _⟩ := hs
  have ho : windowOffset s.params a.addr = some r.offset := haddr ▸ windowOffset_add s.params (offset_lt r)
  obtain ⟨t, ht⟩ := respond_of_served (s := { s with pending := rest }) hs ho
  refine ⟨t, ?_, servedStep_of_respond ht⟩
  rw [step_access h.1 h.2]
  simp only [hostAccess, ho, ht]

/-- The step of an arriving access of the window that is not served ends the program that issued it (R177, R178). -/
theorem step_of_not_served {s : State} {a : Access} {rest : List Event} (h : Arrives s (.access a) rest)
    (hw : InWindow s.params a) (hs : ¬ served s.params a) :
    ∃ c, step s = .next (programFaulted s a.host c (refusedData a.kind) rest) := by
  rcases step_of_window hw.1 hw.2 h with ⟨hserved, -⟩ | ⟨-, hstep⟩
  · exact absurd hserved hs
  · exact hstep

/-- What the run of a whole queue of accesses of the window leads to (R209, R210). -/
structure QueueRun (s t : State) : Prop where
  pending : t.pending = []
  reads : s.reads <+: t.reads
  faults : s.faults <+: t.faults
  faultsOf_iff : ∀ h, faultsOf h t.faults = faultsOf h s.faults ↔ ∀ a ∈ accessesOf h s.pending, served s.params a
  faults_eq : (∀ a, .access a ∈ s.pending → served s.params a) → t.faults = s.faults
  readCount : (∀ a, .access a ∈ s.pending → served s.params a) →
    t.reads.length = s.reads.length + readCount s.pending

theorem queueRun_refl {s : State} (h : s.pending = []) : QueueRun s s :=
  ⟨h, List.prefix_rfl, List.prefix_rfl, fun h' => by simp [h, accessesOf], fun _ => rfl,
    fun _ => by simp [h, Claims.readCount]⟩

/-- A served access before a run: it adds no faulted program, and is served. -/
theorem QueueRun.of_served {s s' t : State} {a : Access} {rest : List Event} (hq : s.pending = .access a :: rest)
    (hs : served s.params a) (hstep : ServedStep s a rest s') (hrun : QueueRun s' t) : QueueRun s t := by
  obtain ⟨hpend, hreads, hfaults, hiff, heq, hcount⟩ := hrun
  rw [hstep.pending, hstep.params] at hiff heq hcount
  rw [hstep.faults] at hfaults hiff heq
  have hrest : (∀ b, .access b ∈ s.pending → served s.params b) → ∀ b, .access b ∈ rest → served s.params b :=
    fun h b hb => h b (hq ▸ List.mem_cons_of_mem _ hb)
  refine ⟨hpend, hstep.reads.trans hreads, hfaults, fun h => ?_, fun h => heq (hrest h), fun h => ?_⟩
  · rw [hiff h, hq, accessesOf]
    by_cases ha : a.host = h <;> simp [ha, hs]
  · rw [hcount (hrest h), hstep.readCount, hq, Claims.readCount, Nat.add_assoc]

/-- A record of host `h` is never lost: the faulted programs of that host are not those before it. -/
theorem faultsOf_ne_of_prefix {l l' : List ProgramFault} {f : ProgramFault} (h : l ++ [f] <+: l') :
    faultsOf f.host l' ≠ faultsOf f.host l := by
  obtain ⟨more, rfl⟩ := h
  simp [faultsOf]

theorem accessesOf_othersOf_of_ne {h k : Nat} (hne : k ≠ h) (l : List Event) :
    accessesOf h (othersOf k l) = accessesOf h l := by
  induction l with
  | nil => rfl
  | cons e rest ih =>
    cases e with
    | access a =>
      by_cases hk : a.host = k
      · have ha : a.host ≠ h := hk ▸ hne
        simp [othersOf, accessesOf, hk, hne, ih]
      · simp [othersOf, accessesOf, hk, ih]
    | _ => simp [othersOf, accessesOf, ih]

/-- A bus error before a run: its program is recorded for good, and the others' accesses stay. -/
theorem QueueRun.of_programFaulted {s t : State} {a : Access} {rest : List Event} {c : BusErrorCause} {d : Option Word}
    (hq : s.pending = .access a :: rest) (hs : ¬ served s.params a)
    (hrun : QueueRun (programFaulted s a.host c d rest) t) : QueueRun s t := by
  have hnot : ¬ ∀ b, .access b ∈ s.pending → served s.params b := fun h => hs (h a (hq ▸ List.mem_cons_self))
  obtain ⟨hpend, hreads, hfaults, hiff, -, -⟩ := hrun
  refine ⟨hpend, hreads, (List.prefix_append _ _).trans hfaults, fun h => ?_, fun h => absurd h hnot,
    fun h => absurd h hnot⟩
  by_cases ha : a.host = h
  · subst ha
    refine iff_of_false (faultsOf_ne_of_prefix hfaults) fun h => hs (h a ?_)
    simp [hq, accessesOf]
  · have hiff' := hiff h
    simpa [programFaulted, accessesOf_othersOf_of_ne ha, hq, accessesOf, ha, faultsOf] using hiff'

theorem length_othersOf_le (h : Nat) (l : List Event) : (othersOf h l).length ≤ l.length := by
  rw [othersOf_eq_filter]
  exact List.length_filter_le _ _

theorem mem_of_mem_othersOf {h : Nat} {l : List Event} {e : Event} (he : e ∈ othersOf h l) : e ∈ l := by
  rw [othersOf_eq_filter] at he
  exact List.mem_of_mem_filter he

/-- A queue of accesses of the window runs to its end in as many steps as it is long, or more (R75, R209). -/
theorem exists_queueRun {n : Nat} {s : State} (hn : s.pending.length ≤ n) (hs : s.resetPhase ≠ .asserted)
    (hw : ∀ e ∈ s.pending, ∃ a, e = .access a ∧ InWindow s.params a) :
    ∃ t, Sys2Proof.core.run n s = .next t ∧ QueueRun s t := by
  induction n generalizing s with
  | zero => exact ⟨s, rfl, queueRun_refl (List.eq_nil_of_length_eq_zero (Nat.le_zero.1 hn))⟩
  | succ n ih =>
    cases hq : s.pending with
    | nil => exact ⟨s, run_idle hq _, queueRun_refl hq⟩
    | cons e rest =>
      rw [hq, List.length_cons] at hn
      rw [hq] at hw
      obtain ⟨a, rfl, ha⟩ := hw e List.mem_cons_self
      have hwrest := fun e he => hw e (List.mem_cons_of_mem _ he)
      by_cases hserved : served s.params a
      · obtain ⟨s', hstep, hs'⟩ := step_of_served ⟨hq, hs⟩ hserved
        obtain ⟨t, ht, hrun⟩ := ih (s := s') (by rw [hs'.pending]; omega) (hs'.resetPhase ▸ hs)
          (by rw [hs'.pending, hs'.params]; exact hwrest)
        exact ⟨t, (run_step hstep n).trans ht, hrun.of_served hq hserved hs'⟩
      · obtain ⟨c, hstep⟩ := step_of_not_served ⟨hq, hs⟩ ha hserved
        obtain ⟨t, ht, hrun⟩ := ih (s := programFaulted s a.host c (refusedData a.kind) rest)
          ((length_othersOf_le _ _).trans (by omega)) hs (fun e he => hwrest e (mem_of_mem_othersOf he))
        exact ⟨t, (run_step hstep n).trans ht, hrun.of_programFaulted hq hserved⟩

/-- Settles O49: the run of exactly as many steps as events are pending. -/
theorem servedAccessesRunToTheEnd : Obligations.ServedAccessesRunToTheEnd := by
  intro s hs hw
  obtain ⟨t, ht, hrun⟩ := exists_queueRun le_rfl hs hw
  exact ⟨t, ht, hrun.pending, hrun.reads, hrun.faults, hrun.faultsOf_iff,
    fun h => ⟨⟨hrun.pending, hrun.faults_eq h⟩, hrun.readCount h⟩⟩

/-! ### One host's program among others -/

theorem host_of_mem_accessesOf {h : Nat} {l : List Event} {a : Access} (ha : a ∈ accessesOf h l) : a.host = h := by
  induction l with
  | nil => nomatch ha
  | cons e rest ih =>
    cases e with
    | access b =>
      by_cases hb : b.host = h
      · rw [accessesOf, if_pos hb, List.mem_cons] at ha
        rcases ha with rfl | ha
        · exact hb
        · exact ih ha
      · rw [accessesOf, if_neg hb] at ha
        exact ih ha
    | _ => exact ih ha

/-- No access of another host arrives before an access of host `h` (R205, R212). -/
def Uninterrupted (h : Nat) (l : List Event) : Prop :=
  ∀ before b after, l = before ++ .access b :: after → b.host = h → ∀ c, .access c ∈ before → c.host = h

theorem Uninterrupted.tail {h : Nat} {e : Event} {rest : List Event} (hx : Uninterrupted h (e :: rest)) :
    Uninterrupted h rest := by
  rintro before b after rfl hb c hc
  exact hx (e :: before) b after rfl hb c (List.mem_cons_of_mem e hc)

/-- While host `h` has an access left, the next access of an uninterrupted queue is one of its own. -/
theorem Uninterrupted.head {h : Nat} {a : Access} {rest : List Event} (hx : Uninterrupted h (.access a :: rest))
    (hne : accessesOf h (.access a :: rest) ≠ []) : a.host = h := by
  obtain ⟨before, b, after, hl, hb⟩ := exists_access_of_accessesOf hne
  cases before with
  | nil =>
    obtain ⟨hab, -⟩ := List.cons.inj hl
    cases hab
    exact hb
  | cons e before =>
    obtain ⟨rfl, -⟩ := List.cons.inj hl
    exact hx _ b after hl hb a List.mem_cons_self

/-- The run of a host that nothing interrupts is its program and nothing else. -/
theorem Uninterrupted.run_eq {h : Nat} {l : List Event} (hx : Uninterrupted h l)
    (hl : ∀ e ∈ l.take (runLength h l), ∃ a, e = .access a) :
    runLength h l = (accessesOf h l).length ∧ ∃ after, l = (accessesOf h l).map Event.access ++ after := by
  induction l with
  | nil => exact ⟨rfl, [], rfl⟩
  | cons e rest ih =>
    by_cases hne : accessesOf h (e :: rest) = []
    · rw [runLength_eq_zero hne, hne]
      exact ⟨rfl, _, rfl⟩
    · have hlen : runLength h (e :: rest) = runLength h rest + 1 := if_neg hne
      rw [hlen, List.take_succ_cons] at hl
      obtain ⟨a, rfl⟩ := hl e List.mem_cons_self
      obtain ⟨hrun, after, hafter⟩ := ih hx.tail fun e he => hl e (List.mem_cons_of_mem _ he)
      rw [hlen, hrun, accessesOf, if_pos (hx.head hne)]
      exact ⟨rfl, after, congrArg (Event.access a :: ·) hafter⟩

/-- Under the launch premises nothing interrupts the program. -/
theorem uninterrupted_of_launchPremises {h : Nat} {program : List Access} {s : State}
    (hp : LaunchPremises h program s) : Uninterrupted h s.pending := by
  obtain ⟨hfirst, -, hx, ⟨hprogram, -⟩, -⟩ := hp
  rintro before b after hq hb c hc
  cases before with
  | nil => nomatch hc
  | cons e before =>
    have hmem : b ∈ program := by
      rw [← hprogram, hq, accessesOf_append]
      simp [accessesOf, hb]
    cases program with
    | nil => nomatch hmem
    | cons a program =>
      have he : e = .access a := by simpa [hq] using hfirst
      subst he
      have ha : a.host = h := host_of_mem_accessesOf (hprogram ▸ List.mem_cons_self)
      rcases List.mem_cons.1 hc with hca | hc
      · cases hca
        exact ha
      · exact hx [] before after a b hq ha hb c hc

theorem run_faults {n : Nat} {s t : State} (h : Sys2Proof.core.run n s = .next t) : s.faults <+: t.faults := by
  induction n generalizing s with
  | zero =>
    cases h
    exact List.prefix_rfl
  | succ n ih =>
    cases hstep : step s with
    | next u => exact (step_faults hstep).trans (ih ((run_step hstep n).symm.trans h))
    | fault f =>
      simp only [Host.Core.run, show Sys2Proof.core.step s = .fault f from hstep] at h
      cases h
    | refused r =>
      simp only [Host.Core.run, show Sys2Proof.core.step s = .refused r from hstep] at h
      cases h

/-- Where no program of host `h` ends faulted, each access of its program is served. -/
theorem served_of_faultsOf_eq {h : Nat} {program : List Access} {after : List Event} {s t : State}
    (hq : s.pending = program.map Event.access ++ after) (hs : s.resetPhase ≠ .asserted)
    (hw : ∀ a ∈ program, a.host = h ∧ InWindow s.params a) (ht : Sys2Proof.core.run program.length s = .next t)
    (hf : faultsOf h t.faults = faultsOf h s.faults) : ∀ a ∈ program, served s.params a := by
  induction program generalizing s with
  | nil => simp
  | cons a program ih =>
    obtain ⟨rfl, ha⟩ := hw a List.mem_cons_self
    by_cases hserved : served s.params a
    · obtain ⟨s', hstep, hs'⟩ := step_of_served ⟨hq, hs⟩ hserved
      have hrest := ih hs'.pending (hs'.resetPhase ▸ hs)
        (by rw [hs'.params]; exact fun b hb => hw b (List.mem_cons_of_mem a hb))
        ((run_step hstep _).symm.trans ht) (by rw [hs'.faults]; exact hf)
      rw [hs'.params] at hrest
      exact List.forall_mem_cons.2 ⟨hserved, hrest⟩
    · obtain ⟨c, hstep⟩ := step_of_not_served ⟨hq, hs⟩ ha hserved
      exact absurd hf (faultsOf_ne_of_prefix (run_faults ((run_step hstep _).symm.trans ht)))

/-- The state `x` of a program on its own, as part of the machine `s`: after all that `s` has read and recorded, and
before the events `after`. -/
def beside (s : State) (after : List Event) (x : State) : State :=
  { x with pending := x.pending ++ after, reads := s.reads ++ x.reads, faults := s.faults ++ x.faults, draws := s.draws }

theorem keepsStorage_beside (s : State) (after : List Event) : KeepsStorage (beside s after) :=
  ⟨fun _ => rfl, fun _ => rfl, fun _ => rfl, fun _ _ => rfl, fun _ _ => rfl, fun x v => by
    simp only [beside, List.append_assoc]⟩

/-- A served access does the same to the program's own state as to the whole machine. -/
theorem step_beside (s : State) (after : List Event) {x y : State} {a : Access} {rest : List Event}
    (h : Arrives x (.access a) rest) (hs : served x.params a) (hstep : step x = .next y) :
    step (beside s after x) = .next (beside s after y) := by
  have hq : (beside s after x).pending = .access a :: (rest ++ after) := congrArg (· ++ after) h.1
  have hacc := (keepsStorage_beside s after).hostAccess (s := { x with pending := rest }) (a := a) fun o c ho hc => by
    obtain ⟨t, ht⟩ := respond_of_served (s := { x with pending := rest }) hs ho
    cases hc.symm.trans ht
  rw [step_access h.1 h.2] at hstep
  rw [hstep] at hacc
  exact (step_access hq h.2).trans hacc

/-- A program whose accesses are all served runs on the whole machine as it runs on its own. -/
theorem run_beside (s : State) (after : List Event) {program : List Access} {x y : State}
    (hq : x.pending = program.map Event.access) (hx : x.resetPhase ≠ .asserted)
    (hs : ∀ a ∈ program, served x.params a) (hrun : Sys2Proof.core.run program.length x = .next y) :
    Sys2Proof.core.run program.length (beside s after x) = .next (beside s after y) := by
  induction program generalizing x with
  | nil =>
    cases hrun
    rfl
  | cons a program ih =>
    obtain ⟨ha, hs⟩ := List.forall_mem_cons.1 hs
    obtain ⟨x', hstep, hx'⟩ := step_of_served ⟨hq, hx⟩ ha
    have hrun' := ih hx'.pending (hx'.resetPhase ▸ hx) (hx'.params ▸ hs) ((run_step hstep _).symm.trans hrun)
    exact (run_step (step_beside s after ⟨hq, hx⟩ ha hstep) _).trans hrun'

/-- A program of served accesses on its own runs to its end (R210). -/
theorem runEnded_of_served {program : List Access} {x : State} (hq : x.pending = program.map Event.access)
    (hx : x.resetPhase ≠ .asserted) (hw : ∀ a ∈ program, InWindow x.params a) (hs : ∀ a ∈ program, served x.params a) :
    ∃ u, Sys2Proof.core.run program.length x = .next u ∧ RunEnded x u := by
  obtain ⟨u, hu, hrun⟩ := exists_queueRun (n := program.length) (s := x) (by simp [hq]) hx fun e he => by
    rw [hq] at he
    obtain ⟨a, ha, rfl⟩ := List.mem_map.1 he
    exact ⟨a, rfl, hw a ha⟩
  refine ⟨u, hu, hrun.pending, hrun.faults_eq fun a ha => hs a ?_⟩
  rw [hq] at ha
  simpa using ha

/-- A program launched on its own in the state of R43. -/
def launchedAlone (p : Params) (program : List Access) : State := { State.reset with params := p }.launch program

theorem launchedAlone_pending (p : Params) (program : List Access) :
    (launchedAlone p program).pending = program.map Event.access := List.append_nil _

theorem launchedAlone_not_asserted (p : Params) (program : List Access) :
    (launchedAlone p program).resetPhase ≠ .asserted := by
  simp [launchedAlone, State.reset]

/-- The machine at the launch is the program launched on its own, beside what the machine holds already (R43, R212). -/
theorem beside_launchedAlone {s : State} {program : List Access} {after : List Event} (hr : ResetApplied s)
    (hq : s.pending = program.map Event.access ++ after) :
    beside s after (launchedAlone s.params program) = s := by
  obtain ⟨ho, hres, hp⟩ := hr
  cases s
  simp_all [beside, launchedAlone, State.launch, State.reset]

/-- Settles O59: the program's accesses are served one after the other, so the machine runs them as the program's own
state does. -/
theorem launchPremisesGiveTheProgramsOwnRun : Obligations.LaunchPremisesGiveTheProgramsOwnRun := by
  intro h program s hp hacc
  obtain ⟨hlen, after, hq⟩ := (uninterrupted_of_launchPremises hp).run_eq hacc
  obtain ⟨-, hreset, -, ⟨hprogram, hwindow⟩, t, ht, hfaults⟩ := hp
  rw [hprogram] at hlen hq
  rw [hlen] at ht
  have hs : s.resetPhase ≠ .asserted := by simp [hreset.2.2]
  have hserved := served_of_faultsOf_eq hq hs
    (fun a ha => ⟨host_of_mem_accessesOf (hprogram ▸ ha), hwindow a ha⟩) ht hfaults
  have halone := launchedAlone_pending s.params program
  have hphase := launchedAlone_not_asserted s.params program
  obtain ⟨u, hu, hended⟩ := runEnded_of_served halone hphase hwindow hserved
  have hrun := run_beside s after halone hphase hserved hu
  rw [beside_launchedAlone hreset hq] at hrun
  have hfaults' : s.faults ++ u.faults = s.faults := by
    rw [hended.2]
    exact List.append_nil _
  exact ⟨hlen, _, u, hrun, hu, hended, hfaults', rfl, rfl, rfl⟩

/-! ### What the host library writes -/

theorem dinValue_error {z : Int} (h : z < 0 ∨ 2 ^ 32 ≤ z) : dinValue (.integer z) = .error .outOfRange :=
  if_neg (by omega)

/-- An integer that DIN can hold reaches it whole (R208). -/
theorem dinValue_ok {z : Int} (h0 : 0 ≤ z) (h : z < 2 ^ 32) :
    ∃ v : Word, (v.toNat : Int) = z ∧ dinValue (.integer z) = .ok v := by
  refine ⟨BitVec.ofInt 32 z, ?_, if_pos ⟨h0, h⟩⟩
  rw [BitVec.toNat_ofInt]
  omega

theorem slenValue_error {l : List Nat} (h : 2 ^ 32 ≤ l.length) : slenValue l = .error .invalidLength :=
  if_neg (Nat.not_lt.2 h)

theorem slenValue_ok {l : List Nat} (h : l.length < 2 ^ 32) : slenValue l = .ok (BitVec.ofNat 32 l.length) :=
  if_pos h

/-- A width that WIDTH can hold stands in the command word whole (R91, R208). -/
theorem widthField_ok {w : Int} (h0 : 0 ≤ w) (h : w < 8) :
    ∃ wf, widthField w = .ok wf ∧
      ∀ op : BitVec 4, wordOf { rsvd := 0#25, width := wf, op := op } = BitVec.ofNat 32 (op.toNat + 16 * w.toNat) := by
  refine ⟨BitVec.ofInt 3 w, if_pos ⟨h0, h⟩, fun op => BitVec.eq_of_toNat_eq ?_⟩
  simp only [toNat_wordOf, BitVec.toNat_ofInt, BitVec.toNat_ofNat]
  omega

/-- The accesses of an encodeFor call whose width and number the registers can hold. -/
theorem libraryEncode_ok (p : Params) {w : Int} (h0 : 0 ≤ w) (h : w < 8) {n : HostNumber} {v : Word}
    (hv : dinValue n = .ok v) :
    libraryEncode p w n = .ok [writeAccess p .din v, writeAccess p .cmd (BitVec.ofNat 32 (1 + 16 * w.toNat)),
      readAccess p .status, readAccess p .sout0, readAccess p .sout1] := by
  obtain ⟨wf, hwf, hword⟩ := widthField_ok h0 h
  simp only [libraryEncode, hwf, hv, hword]
  rfl

theorem libraryEncode_error (p : Params) {w : Int} (h0 : 0 ≤ w) (h : w < 8) {n : HostNumber} {e : HostReport}
    (hn : dinValue n = .error e) : libraryEncode p w n = .error e := by
  obtain ⟨wf, hwf, -⟩ := widthField_ok h0 h
  simp only [libraryEncode, hwf, hn]

/-- The accesses of a decodeFor call whose width and length the registers can hold. -/
theorem libraryDecode_ok (p : Params) {w : Int} (h0 : 0 ≤ w) (h : w < 8) {l : List Nat} (hl : l.length < 2 ^ 32) :
    libraryDecode p w l = .ok [writeAccess p .sin0 (stringChars l).word0, writeAccess p .sin1 (stringChars l).word1,
      writeAccess p .slen (BitVec.ofNat 32 l.length), writeAccess p .cmd (BitVec.ofNat 32 (2 + 16 * w.toNat)),
      readAccess p .status, readAccess p .dout, readAccess p .errPos] := by
  obtain ⟨wf, hwf, hword⟩ := widthField_ok h0 h
  simp only [libraryDecode, hwf, slenValue_ok hl, hword]
  rfl

theorem libraryDecode_invalidLength (p : Params) {w : Int} (h0 : 0 ≤ w) (h : w < 8) {l : List Nat}
    (hl : 2 ^ 32 ≤ l.length) : libraryDecode p w l = .error .invalidLength := by
  obtain ⟨wf, hwf, -⟩ := widthField_ok h0 h
  simp only [libraryDecode, hwf, slenValue_error hl]

/-- Each character of a caller's string is written in its byte, and 0x00 past the end (R103). -/
theorem getD_map_charByte (l : List Nat) (k : Nat) : (l.map charByte).getD k 0#8 = sinByte l k := by
  rw [List.getD_eq_getElem?_getD, List.getElem?_map, sinByte]
  cases l[k]? <;> rfl

theorem word0_stringChars (l : List Nat) :
    (stringChars l).word0 = fourBytes (sinByte l 0) (sinByte l 1) (sinByte l 2) (sinByte l 3) := by
  simp only [← getD_map_charByte, ← wordOfLanes_eq_fourBytes]
  rfl

theorem word1_stringChars (l : List Nat) : (stringChars l).word1 = BitVec.ofNat 32 (sinByte l 4).toNat := by
  rw [← getD_map_charByte, BitVec.ofNat_toNat]
  rfl

theorem charByte_of_gt {c : Nat} (h : 0xFF < c) : charByte c = 0#8 := if_neg (Nat.not_le.2 h)

theorem REV_zero : REV 0#8 = none := by decide

/-- Settles O57: the three checks of the library, and what it writes when they pass. -/
theorem hostReportsWhatRegistersCannotHold : Obligations.HostReportsWhatRegistersCannotHold := by
  refine ⟨fun p w n => libraryEncode_widthError p n, fun p w l => libraryDecode_widthError p l,
    fun p w h0 h => ⟨libraryEncode_error p h0 h rfl, fun z hz => libraryEncode_error p h0 h (dinValue_error hz),
      fun z hz0 hz => ?_, fun l => libraryDecode_invalidLength p h0 h, fun l hl => ?_⟩,
    fun p => ⟨rfl, fun z hz => ?_, fun z hz0 hz => ?_⟩, fun c hc => ?_⟩
  · obtain ⟨v, hvz, hv⟩ := dinValue_ok hz0 hz
    exact ⟨v, hvz, libraryEncode_ok p h0 h hv⟩
  · refine ⟨BitVec.ofNat 32 l.length, ?_, ?_⟩
    · rw [BitVec.toNat_ofNat, Nat.mod_eq_of_lt hl]
    · rw [← word0_stringChars, ← word1_stringChars]
      exact libraryDecode_ok p h0 h hl
  · simp only [librarySymbol, dinValue_error hz]
  · obtain ⟨v, hvz, hv⟩ := dinValue_ok hz0 hz
    refine ⟨v, hvz, ?_⟩
    simp only [librarySymbol, hv]
    rfl
  · exact ⟨charByte_of_gt hc, (congrArg REV (charByte_of_gt hc)).trans REV_zero⟩

/-! ### Running a library call -/

theorem keepsStorage_launch (as : List Access) : KeepsStorage (State.launch · as) :=
  ⟨fun _ => rfl, fun _ => rfl, fun _ => rfl, fun _ _ => rfl, fun _ _ => rfl, fun _ _ => rfl⟩

/-- A write at the head of a launched program that MemWrite performs, and then the rest of the program. -/
theorem run_launch_write {s t : State} (hs : s.resetPhase ≠ .asserted) {r : Reg} {v : Word} (as : List Access)
    (hw : memWrite s v r = .ok (.next t)) (k : Nat) :
    Sys2Proof.core.run (k + 1) (s.launch (writeAccess s.params r v :: as)) = Sys2Proof.core.run k (t.launch as) := by
  have hlaunch := (keepsStorage_launch as).memWrite s v r
  rw [hw] at hlaunch
  exact run_step (step_write (h := 0) (s := s.launch (writeAccess s.params r v :: as)) ⟨rfl, hs⟩ hlaunch) k

/-- The reads of a list of registers, launched where reset is not asserted (R69). -/
theorem run_launch_reads {s : State} (hs : s.resetPhase ≠ .asserted) (rs : List Reg) :
    Sys2Proof.core.run rs.length (s.launch (rs.map (readAccess s.params))) =
      .next { s with reads := s.reads ++ rs.map (memRead s) } := by
  induction rs generalizing s with
  | nil => exact congrArg (fun l => Host.Outcome.next { s with reads := l }) (List.append_nil _).symm
  | cons r rs ih =>
    have hread := step_read (h := 0) (r := r) (s := s.launch ((r :: rs).map (readAccess s.params))) ⟨rfl, hs⟩
    rw [(keepsStorage_launch _).memRead] at hread
    have hsame : memRead { s with reads := s.reads ++ [memRead s r] } = memRead s := funext (memRead_congr rfl rfl)
    have hrest := ih (s := { s with reads := s.reads ++ [memRead s r] }) hs
    rw [hsame, List.append_assoc] at hrest
    exact (run_step hread rs.length).trans hrest

/-- A command at the head of a launched program, and then reads of registers: they see what the command left (R204). -/
theorem run_launch_command_reads {s t : State} (hs : s.resetPhase ≠ .asserted) {i : Instr} (h : exec i s = .next t)
    (rs : List Reg) :
    Sys2Proof.core.run (rs.length + 1)
        (s.launch (writeAccess s.params .cmd (encode i) :: rs.map (readAccess s.params))) =
      .next { t with reads := s.reads ++ rs.map (memRead t) } := by
  have hw : memWrite s (encode i) .cmd = .ok (.next t) := congrArg Except.ok ((execute_encode s i).trans h)
  rw [exec_eq_commit] at h
  obtain rfl := Host.Outcome.next.inj h
  exact (run_launch_write hs _ hw _).trans (run_launch_reads (s := s.commit (commandResults i s.operands)) hs rs)

/-! ### What a library call answers -/

/-- The state in which the command of a decodeFor call runs (R103). -/
def decodeReady (s : State) (l : List Nat) : State :=
  { s with operands := { s.operands with
      slen := BitVec.ofNat 32 l.length,
      sin := (s.operands.sin.setWord0 (stringChars l).word0).setWord1 (stringChars l).word1 } }

/-- The state in which the command of an indexOf call runs (R103). -/
def indexReady (s : State) (c : Nat) : State :=
  { s with operands := { s.operands with sin := s.operands.sin.setWord0 ((charByte c).setWidth 32) } }

/-- The accesses of a decodeFor call in width N (R103, R208). -/
theorem libraryDecode_digits (p : Params) (n : Width) {l : List Nat} (hl : l.length < 2 ^ 32) :
    libraryDecode p n.digits l = .ok [writeAccess p .sin0 (stringChars l).word0,
      writeAccess p .sin1 (stringChars l).word1, writeAccess p .slen (BitVec.ofNat 32 l.length),
      writeAccess p .cmd (encode (decodeInstr n)), readAccess p .status, readAccess p .dout, readAccess p .errPos] := by
  have hn := digits_le_five n
  rw [libraryDecode_ok p (by omega) (by omega) hl, Int.toNat_natCast, (ofNat_digits_eq_encode n).2]

/-- The run of a decodeFor call: its command runs with the string in SIN, and is read (R208). -/
theorem run_libraryDecode {s t : State} (hs : s.resetPhase ≠ .asserted) {n : Width} {l : List Nat}
    (hl : l.length < 2 ^ 32) (h : exec (decodeInstr n) (decodeReady s l) = .next t) :
    ∃ as, libraryDecode s.params n.digits l = .ok as ∧
      Sys2Proof.core.run as.length (s.launch as) =
        .next { t with reads := s.reads ++ [memRead t .status, memRead t .dout, memRead t .errPos] } := by
  refine ⟨_, libraryDecode_digits s.params n hl, ?_⟩
  exact (run_launch_write (r := .sin0) hs _ rfl 6).trans <|
    (run_launch_write (r := .sin1) (s := { s with operands := { s.operands with
      sin := s.operands.sin.setWord0 (stringChars l).word0 } }) hs _ rfl 5).trans <|
    (run_launch_write (r := .slen) (s := { s with operands := { s.operands with
      sin := (s.operands.sin.setWord0 (stringChars l).word0).setWord1 (stringChars l).word1 } }) hs _ rfl 4).trans <|
    run_launch_command_reads (s := decodeReady s l) hs h [.status, .dout, .errPos]

/-- The run of an indexOf call: its command runs with the character in SIN[0], and is read (R208). -/
theorem run_libraryIndex {s t : State} (hs : s.resetPhase ≠ .asserted) {c : Nat}
    (h : exec .indexOf (indexReady s c) = .next t) :
    Sys2Proof.core.run 4 (s.launch (libraryIndex s.params c)) =
      .next { t with reads := s.reads ++ [memRead t .status, memRead t .dout] } :=
  (run_launch_write (r := .sin0) hs _ rfl 3).trans
    (run_launch_command_reads (s := indexReady s c) hs h [.status, .dout])

/-- A caller's character is a symbol exactly when the byte it is written as has an index (R208). -/
theorem isSymbol_iff (c : Nat) : IsSymbol c ↔ REV (charByte c) ≠ none := by
  by_cases hc : c ≤ 0xFF
  · simp only [IsSymbol, charByte, hc, true_and, if_true]
  · refine iff_of_false (fun h => hc h.1) ?_
    rw [charByte_of_gt (Nat.not_le.1 hc), REV_zero]
    exact not_not.2 rfl

/-- DECODEN reads the caller's characters, if there are N of them. -/
theorem stringOperand_decodeReady (s : State) {n : Width} {l : List Nat} (h : l.length = n.digits) :
    stringOperand (decodeReady s l).operands n = l.map charByte := by
  have hsin : (decodeReady s l).operands.sin = stringChars l := setWord1_setWord0_words _ _
  rw [stringOperand, hsin]
  exact take_toList_ofList (by rw [List.length_map, h])

theorem slen_decodeReady_iff (s : State) {n : Width} {l : List Nat} (hl : l.length < 2 ^ 32) :
    (decodeReady s l).operands.slen = widthWord n ↔ l.length = n.digits := by
  rw [eq_widthWord_iff, decodeReady, BitVec.toNat_ofNat, Nat.mod_eq_of_lt hl]

/-- STATUS of a failed command is the code of its error (R25, R171). -/
theorem memRead_status_failure (s : State) (k : ErrKind) {code : BitVec 3} (h : k.code = code) (val lim : Word)
    (pos : BitVec 3) : memRead (Claims.failure s code val lim pos) .status = statusOf k := by
  subst h
  apply BitVec.eq_of_toNat_eq
  cases k <;> exact toNat_statusWord _

/-- What decodeFor answers from the state its command left. -/
def decodeAnswer (l : List Nat) (t : State) : Except HostReport Word :=
  decodeReport l [memRead t .status, memRead t .dout, memRead t .errPos]

section

variable {s t : State} {n : Width} {l : List Nat} (hl : l.length < 2 ^ 32)
  (hexec : exec (decodeInstr n) (decodeReady s l) = .next t)
include hl hexec

theorem decodeAnswer_of_length_ne (h : l.length ≠ n.digits) : decodeAnswer l t = .error .invalidLength := by
  obtain rfl := Host.Outcome.next.inj
    ((exec_decode_of_slen_ne (mt (slen_decodeReady_iff s hl).1 h)).symm.trans hexec)
  rw [decodeAnswer, memRead_status_failure _ .invalidLength (code := 2#3) rfl]
  rfl

theorem decodeAnswer_of_symbols (h : l.length = n.digits) (hsym : ∀ c ∈ l, IsSymbol c) :
    decodeAnswer l t = .ok t.results.dout := by
  obtain ⟨rs, hrs⟩ := (forall_REV_ne_none_iff (l.map charByte)).1 (by simpa [isSymbol_iff] using hsym)
  rw [← stringOperand_decodeReady s h] at hrs
  obtain rfl := Host.Outcome.next.inj
    ((exec_decode_of_hasIndices ((slen_decodeReady_iff s hl).2 h) hrs).symm.trans hexec)
  rw [decodeAnswer, memRead_status_success]
  rfl

/-- The first character that is no symbol is reported as the caller gave it. -/
theorem decodeAnswer_of_first_bad (h : l.length = n.digits) {before after : List Nat} {c : Nat}
    (hsplit : l = before ++ c :: after) (hc : ¬ IsSymbol c) (hbefore : ∀ d ∈ before, IsSymbol d) :
    decodeAnswer l t = .error (.unknownSymbol c) := by
  have hstring : stringOperand (decodeReady s l).operands n =
      before.map charByte ++ charByte c :: after.map charByte := by
    rw [stringOperand_decodeReady s h, hsplit, List.map_append, List.map_cons]
  have hexec' := exec_decode_of_first_bad ((slen_decodeReady_iff s hl).2 h) hstring
    (by simpa [isSymbol_iff] using hbefore) (by simpa [isSymbol_iff] using hc)
  obtain rfl := Host.Outcome.next.inj (hexec'.symm.trans hexec)
  have hlen : before.length < 8 := by
    have hn := digits_le_five n
    rw [← h, hsplit, List.length_append, List.length_cons] at hn
    omega
  have hpos : ((BitVec.ofNat 3 (before.map charByte).length).setWidth 32).toNat = before.length := by
    rw [BitVec.toNat_setWidth_of_le (by decide), BitVec.toNat_ofNat, List.length_map, Nat.mod_eq_of_lt hlen]
  have horiginal : originalCharacter l ((BitVec.ofNat 3 (before.map charByte).length).setWidth 32) = some c := by
    rw [originalCharacter, hpos, hsplit, List.getElem?_append_right le_rfl, Nat.sub_self, List.getElem?_cons_zero]
  rw [decodeAnswer, memRead_status_failure _ .unknownSymbol (code := 3#3) rfl]
  exact congrArg (fun c => Except.error (unknownReport c)) horiginal

end

/-- What indexOf answers from the state its command left. -/
def indexAnswer (c : Nat) (t : State) : Except HostReport Word := indexReport c [memRead t .status, memRead t .dout]

/-- INDEX_OF reads the caller's character. -/
theorem c0_indexReady (s : State) (c : Nat) : (indexReady s c).operands.sin.c0 = charByte c := by
  apply BitVec.eq_of_toNat_eq
  simpa [indexReady, Chars.setWord0, lane] using (charByte c).isLt

theorem indexAnswer_of_symbol {s t : State} {c : Nat} (hexec : exec .indexOf (indexReady s c) = .next t)
    (hc : IsSymbol c) : indexAnswer c t = .ok t.results.dout := by
  rw [isSymbol_iff, ← c0_indexReady s] at hc
  obtain ⟨r, hr⟩ := Option.ne_none_iff_exists'.1 hc
  obtain rfl := Host.Outcome.next.inj ((exec_indexOf_of_some hr).symm.trans hexec)
  rw [indexAnswer, memRead_status_success]
  rfl

theorem indexAnswer_of_not_symbol {s t : State} {c : Nat} (hexec : exec .indexOf (indexReady s c) = .next t)
    (hc : ¬ IsSymbol c) : indexAnswer c t = .error (.unknownSymbol c) := by
  rw [isSymbol_iff, ← c0_indexReady s, not_not] at hc
  obtain rfl := Host.Outcome.next.inj ((exec_indexOf_of_none hc).symm.trans hexec)
  rw [indexAnswer, memRead_status_failure _ .unknownSymbol (code := 3#3) rfl]
  rfl

/-- Settles O58: the answer depends on the state the call's command left, and the first character that is no symbol
splits the string. -/
theorem libraryReportsTheOriginalCharacter : Obligations.LibraryReportsTheOriginalCharacter := by
  refine ⟨fun s n l hs hl => ?_, fun s c hs => ?_⟩
  · have hexec := exec_eq_commit (decodeInstr n) (decodeReady s l)
    obtain ⟨as, has, hrun⟩ := run_libraryDecode hs hl hexec
    refine ⟨as, _, _, _, _, has, hrun, rfl, rfl, decodeAnswer_of_length_ne hl hexec,
      decodeAnswer_of_symbols hl hexec, fun h k c hk hc hfirst => ?_⟩
    obtain ⟨hlt, rfl⟩ := List.getElem?_eq_some_iff.1 hk
    have hsplit : l = l.take k ++ l[k] :: l.drop (k + 1) := by
      rw [List.getElem_cons_drop, List.take_append_drop]
    refine decodeAnswer_of_first_bad hl hexec h hsplit hc fun d hd => ?_
    obtain ⟨j, hj, rfl⟩ := List.mem_take_iff_getElem.1 hd
    exact hfirst j _ (by omega) (List.getElem?_eq_getElem _)
  · have hexec := exec_eq_commit .indexOf (indexReady s c)
    exact ⟨_, _, _, run_libraryIndex hs hexec, rfl, indexAnswer_of_symbol hexec, indexAnswer_of_not_symbol hexec⟩

end Sys2Proof.Proofs
